-- ==== Sys2Proof/Word.lean ====
section
/-! DEFINITION. The word types of CORE: the byte of a memory cell or a register (rules R1, R10, R30) and the
9-bit program counter (rule R2, decision D1). -/

namespace Sys2Proof

/-- The 8-bit value of a memory cell, a general register, an opcode byte or an operand byte (rule R1). -/
abbrev Byte := BitVec 8

/-- The program counter's 9 bits (rule R2: `PC_BITS` = 9). -/
abbrev PcWord := BitVec 9

end Sys2Proof
end

