-- ==== Sys2Proof/Syntax.lean ====
section
/-! DEFINITION. The instructions of CORE: one constructor for each of the four rows of the opcode map (rule R57). -/

namespace Sys2Proof

/-- An instruction with its operand bytes. A register operand is the WHOLE operand byte, 0 to 255, never masked
(rules R12, R55, R56): an index of 8 or more is a legal instruction whose execution raises a fault. -/
inductive Instr where
  /-- HLT, one byte: halt (rule R110). -/
  | hlt
  /-- LDI a, b, three bytes: `x[a] <- b` (rule R90). -/
  | ldi (a b : Byte)
  /-- PRN a, two bytes: print `x[a]` (rule R95). -/
  | prn (a : Byte)
  /-- MUL a, b, three bytes: `x[a] <- (x[a] * x[b]) mod 256` (rule R104). -/
  | mul (a b : Byte)
  deriving DecidableEq, Repr

end Sys2Proof
end

