-- ==== Sys2Proof/Decode.lean ====
section
/-! DEFINITION. The instruction length, the dispatch table, the decoder (total on any three fetched bytes, rejecting by
name) and the encoder (rules R50 to R61). -/

namespace Sys2Proof

/-- The three bytes every step fetches, whatever the instruction's own length: the opcode byte at pc, operand a
at pc+1, operand b at pc+2 (rules R50, R54). -/
structure Window where
  opcode : Byte
  operandA : Byte
  operandB : Byte
  deriving DecidableEq, Repr

/-- What the decoder answers when it finds no instruction. -/
inductive DecodeReject where
  /-- The byte fetched as an opcode is in no row of the dispatch table (rule R59). -/
  | unsupportedOpcode (opcode : Byte)
  deriving DecidableEq, Repr

/-- The four handlers the dispatch table can name (rule R57). -/
inductive Handler where
  | hlt
  | ldi
  | prn
  | mul
  deriving DecidableEq, Repr

/-- One row of the dispatch table: a whole opcode byte (mask 0xFF) and its handler (rule R57). -/
structure Row where
  pattern : Byte
  handler : Handler
  deriving DecidableEq, Repr

/-- HLT's opcode byte, `00000001` (rule R57). -/
def opHlt : Byte := 0b00000001#8

/-- LDI's opcode byte, `10000010` (rule R57). -/
def opLdi : Byte := 0b10000010#8

/-- PRN's opcode byte, `01000111` (rule R57). -/
def opPrn : Byte := 0b01000111#8

/-- MUL's opcode byte, `10100010` (rule R57). -/
def opMul : Byte := 0b10100010#8

/-- The dispatch table, in the source's row order; a constant of the machine (rules R57, R58). -/
def dispatchTable : List Row :=
  [⟨opHlt, .hlt⟩, ⟨opLdi, .ldi⟩, ⟨opPrn, .prn⟩, ⟨opMul, .mul⟩]

/-- Lookup compares the whole opcode byte (rule R57). -/
def lookup (opcode : Byte) : Option Handler :=
  (dispatchTable.find? fun r => r.pattern == opcode).map Row.handler

/-- `length = ((opcode >> 6) & 0b11) + 1`, for every opcode byte, recognised or not (rules R51, R52, R72). -/
def opLength (opcode : Byte) : Nat :=
  ((opcode >>> 6) &&& 0b11#8).toNat + 1

/-- Decoding the three fetched bytes. An instruction ignores the bytes it has no operand for (rule R54); a byte that
is in no row is rejected by name, and the loop skips it (rules R59, R77). -/
def decode (w : Window) : Except DecodeReject Instr :=
  match lookup w.opcode with
  | some .hlt => .ok .hlt
  | some .ldi => .ok (.ldi w.operandA w.operandB)
  | some .prn => .ok (.prn w.operandA)
  | some .mul => .ok (.mul w.operandA w.operandB)
  | none => .error (.unsupportedOpcode w.opcode)

/-- The window at the front of a list of bytes; none where fewer than the three bytes of a fetch are there. -/
def Window.ofBytes : List Byte → Option Window
  | o :: a :: b :: _ => some ⟨o, a, b⟩
  | _ => none

/-- The bytes of a window at ascending addresses (rules R35, R50). -/
def Window.bytes (w : Window) : List Byte :=
  [w.opcode, w.operandA, w.operandB]

/-- The opcode byte of an instruction (rule R57). -/
def Instr.opcode : Instr → Byte
  | .hlt => opHlt
  | .ldi _ _ => opLdi
  | .prn _ => opPrn
  | .mul _ _ => opMul

/-- The encoder: opcode, operand a, operand b at ascending addresses, formats F0, F1 and F2 (rules R35, R50, R57). -/
def encode : Instr → List Byte
  | .hlt => [opHlt]
  | .ldi a b => [opLdi, a, b]
  | .prn a => [opPrn, a]
  | .mul a b => [opMul, a, b]

/-- Byte `k` of an instruction whose bits are `w`, bit 0 the least significant bit of the first byte, every bit above
`nbits` 0. -/
def tableByte (nbits w k : Nat) : Byte :=
  BitVec.ofNat 8 ((w % 2 ^ nbits) >>> (8 * k))

/-- The fetch window of an instruction given as the opcode table numbers its bits. -/
def windowOfTableWord (nbits w : Nat) : Window :=
  ⟨tableByte nbits w 0, tableByte nbits w 1, tableByte nbits w 2⟩

/-- The instruction the decoder reads from the bits of an opcode-table word; none where it rejects them. -/
def decodeTableWord (nbits w : Nat) : Option Instr :=
  match decode (windowOfTableWord nbits w) with
  | .ok i => some i
  | .error _ => none

end Sys2Proof
end

