-- ==== Sys2Proof/Config.lean ====
section
/-! DEFINITION. What is fixed for this hardware (rule R1) and the one point the spec leaves open for good,
`PRINT_FORMAT` (rule R3, decision D11). -/

namespace Sys2Proof.Config

/-- `MEM_SIZE`, the number of memory cells (rule R1). -/
abbrev memSize : Nat := 256

/-- `NREG`, the number of general registers (rule R1). -/
abbrev nreg : Nat := 8

/-- `SP_INDEX`, the register reserved by convention as stack pointer; a convention for software, with no
hardware effect (rules R1, R11), so nothing of the machine reads it. -/
abbrev spIndex : Nat := 7

/-- `PRINT_FORMAT` for a `Print(a, v)` event: the text a collaborator prints, `OPEN` in the spec (rule R3, decision
D11). No body and no rule depends on it: nothing can be proved about the text (log entry 7). -/
opaque printText : Byte → Byte → String

/-- `PRINT_FORMAT` for a `Diag(UnsupportedOpcode, at, opcode)` event, `OPEN` in the spec (decisions D11, D12;
log entry 7). -/
opaque diagText : PcWord → Byte → String

end Sys2Proof.Config
end

