-- ==== Sys2Proof/Machine/State.lean ====
section
/-! DEFINITION. The whole state of CORE as plain data (rules R10 to R24, R30), the reasons a step could stop, and the state
right after reset (rules R22, R150). -/

namespace Sys2Proof.Machine

/-- The run state (rule R17). The source's flag `running` is true exactly in `running`. -/
inductive RunState where
  /-- Created or reset, not yet started; the loader may write memory. -/
  | idle
  /-- The loop is executing steps. -/
  | running
  /-- HLT was executed; terminal. -/
  | halted
  /-- A fatal fault was raised; terminal. -/
  | faulted
  deriving DecidableEq, Repr

/-- The ALU's operation selector. ADD and MUL are the two operations (rule R100, decision D19: an abstract enumeration,
no encoding). `other` stands for every selector outside the two, told apart by a bare tag, so that rule R103's fault is
a case of the ALU's contract (log entry 5); no instruction passes it. -/
inductive AluOp where
  | add
  | mul
  | other (tag : Nat)
  deriving DecidableEq, Repr

/-- The three fatal fault causes with the information each records (rule R120). Rule R128 describes what raising one
does, so the machine TAKES it: a next state that is `Faulted` with the cause in the latch. No step answers
`Host.Outcome.fault`. -/
inductive Fault where
  /-- Raised by the memory accessors at an address of 256 or more (rules R32, R33, R121). Safe: the spec's own fault,
  entered as rule R128 says. -/
  | outOfBoundsAccess (addr : Nat)
  /-- Raised by the register accessors at an index of 8 or more: LDI a, PRN a, MUL a, MUL b (rules R12, R13, R122).
  Safe: the spec's own fault, entered as rule R128 says. -/
  | invalidRegisterIndex (index : Byte)
  /-- Raised by the ALU for a selector outside ADD and MUL (rules R103, R123); no instruction can cause it. Safe: the
  spec's own fault, entered as rule R128 says. -/
  | unsupportedALUOperation (op : AluOp)
  deriving DecidableEq, Repr

/-- The reasons a step could be refused. -/
inductive Refusal where
  /-- An instruction without a meaning. Raised by no arm of exec: all four instructions have theirs. Safe. -/
  | notModelled (mnemonic : String)
  deriving DecidableEq, Repr

/-- What the core sends to its collaborators (rule R20). -/
inductive Event where
  /-- `Print(a, v)`: PRN read the value `value` from register `index` (rule R95). -/
  | print (index value : Byte)
  /-- `Diag(UnsupportedOpcode, at, opcode)`: dispatch found no handler for the byte at address `addr` (rule R77). -/
  | diag (addr : PcWord) (opcode : Byte)
  deriving DecidableEq, Repr

/-- The 256 cells of memory (rule R30) as pairs of address and byte in one canonical form: addresses below 256 and
strictly rising, no entry equal to what an unlisted address reads as (`Memory.wf` in Machine/Ops.lean). -/
abbrev Memory := List Host.Cell

/-- All the state the spec gives the machine (10_state.md section 1: "There is no other state"). -/
structure State where
  /-- `x[0]` to `x[7]`, eight general registers of 8 bits, none hardwired (rule R10). -/
  regs : Vector Byte 8
  /-- The program counter: the address of the next opcode byte (rules R2, R14). -/
  pc : PcWord
  /-- The memory cells (rule R30). -/
  mem : Memory
  /-- The run state (rule R17). -/
  runState : RunState
  /-- The fault latch: none, or the cause and its information (rule R19). -/
  fault : Option Fault
  /-- The event trace, oldest first, append-only (rule R20). -/
  trace : List Event
  deriving DecidableEq, Repr

/-- The state right after reset: every value is the spec's own (rules R22, R150). -/
def State.reset : State where
  regs := Vector.replicate 8 0#8
  pc := 0#9
  mem := []
  runState := .idle
  fault := none
  trace := []

end Sys2Proof.Machine
end

