-- ==== Sys2Proof/Machine/Flags.lean ====
section
/-! DEFINITION. This hardware has no flag and no condition code (rule R16): arithmetic records no carry and no overflow.
What stands here is what arithmetic does in their place: it reduces modulo 256 (rule R105). -/

namespace Sys2Proof.Machine

/-- A natural number reduced modulo 256: the rest of an exact sum or product is lost and recorded nowhere
(rules R13, R16, R105). -/
def wrap8 (n : Nat) : Byte :=
  BitVec.ofNat 8 n

end Sys2Proof.Machine
end

