-- ==== Sys2Proof/Machine/Ops.lean ====
section
/-! DEFINITION. The named operations over memory, the program counter, the trace and the run state, and raising a fault
(rules R14, R20, R30 to R34, R78, R120, R128). There is no return from a fault (rule R129): the only way out is reset. -/

namespace Sys2Proof.Machine

/-- What an address that is not listed reads as: memory is zero-initialised (rules R22, R23, R30). -/
def Memory.unlisted : Byte := 0#8

/-- The cell at an address, with no range check. -/
def Memory.peek : Memory → Nat → Byte
  | [], _ => Memory.unlisted
  | (a, v) :: m, k => if a = k then v else Memory.peek m k

/-- Put a byte into the cell at an address, with no range check, keeping the canonical form: an entry that would equal
what an unlisted address reads as is not kept. -/
def Memory.poke : Memory → Nat → Byte → Memory
  | [], k, v => if v = Memory.unlisted then [] else [(k, v)]
  | (a, b) :: m, k, v =>
    if k < a then
      if v = Memory.unlisted then (a, b) :: m else (k, v) :: (a, b) :: m
    else if k = a then
      if v = Memory.unlisted then m else (k, v) :: m
    else
      (a, b) :: Memory.poke m k v

/-- The canonical form of a memory whose listed addresses are all at least `lo`. -/
def Memory.wfFrom (lo : Nat) : Memory → Bool
  | [] => true
  | (a, v) :: m =>
    decide (lo ≤ a) && decide (a < Config.memSize) && decide (v ≠ Memory.unlisted) && Memory.wfFrom (a + 1) m

/-- The canonical form: addresses strictly rising and below 256, no entry equal to what an unlisted address reads as. -/
def Memory.wf (m : Memory) : Bool :=
  Memory.wfFrom 0 m

/-- The state with other memory contents. -/
def State.setMem (s : State) (m : Memory) : State :=
  { s with mem := m }

/-- The state with another run state (rule R17). -/
def State.setRunState (s : State) (r : RunState) : State :=
  { s with runState := r }

/-- The source's flag `running` (rule R17): true exactly when the run state is `Running`. -/
def State.isRunning (s : State) : Bool :=
  decide (s.runState = .running)

/-- `MemRead(addr, 1)` (rule R32): no wrap-around and no zero padding (rule R44). -/
def memRead (addr : Nat) (s : State) : Except Fault Byte :=
  if addr ≥ Config.memSize then .error (.outOfBoundsAccess addr) else .ok (s.mem.peek addr)

/-- `MemWrite(addr, 1, v)` (rule R33). No instruction performs it; the load operation does. -/
def memWrite (addr : Nat) (v : Byte) (s : State) : Except Fault State :=
  if addr ≥ Config.memSize then .error (.outOfBoundsAccess addr) else .ok (s.setMem (s.mem.poke addr v))

/-- `pc <- pc + n`, in 9 bits (rules R14, R15, R78). From an address at which a step can complete (pc at most 253) the
sum fits, so nothing is reduced (rule R164; log entry 3). -/
def State.advance (s : State) (n : Nat) : State :=
  { s with pc := s.pc + BitVec.ofNat 9 n }

/-- `emit E`: append an event to the trace (rule R20). -/
def State.emit (s : State) (e : Event) : State :=
  { s with trace := s.trace ++ [e] }

/-- The state after `raise F(info)`: `Faulted`, the cause latched, everything else as it was, pc still at the opcode
byte (rule R128). -/
def State.latchFault (s : State) (f : Fault) : State :=
  { s with runState := .faulted, fault := some f }

/-- `raise F(info)`, the one way a fault is taken (rule R128): a next state, since the spec describes the entry. -/
def raise (f : Fault) (s : State) : Host.Outcome State Fault Refusal :=
  .next (s.latchFault f)

/-- How phases 4 to 6 of a step end (rules R70, R78, R128): where the handler answers a state, pc advances by the
length; where it raises, nothing it did is kept and pc stays. `s` is the state before the handler. -/
def complete (len : Nat) (s : State) (r : Except Fault State) : Host.Outcome State Fault Refusal :=
  match r with
  | .ok t => .next (t.advance len)
  | .error f => raise f s

/-- The code of a fault cause (rule R120, decision D7). -/
def Fault.code : Fault → Nat
  | .outOfBoundsAccess _ => 1
  | .invalidRegisterIndex _ => 2
  | .unsupportedALUOperation _ => 3

/-- The program's output: the `Print` events of the trace, in order, as register index and value (rule R20). -/
def State.output (s : State) : List (Byte × Byte) :=
  s.trace.filterMap fun e =>
    match e with
    | .print a v => some (a, v)
    | .diag _ _ => none

/-- The text a collaborator prints for an event: the open parameter `PRINT_FORMAT` (decisions D11, D12). -/
def Event.text : Event → String
  | .print a v => Config.printText a v
  | .diag p o => Config.diagText p o

end Sys2Proof.Machine
end

