-- ==== Sys2Proof/Machine/Operands.lean ====
section
/-! DEFINITION. The operand forms: a register index, used whole and never masked, and an immediate (rules R12, R13, R55,
R56). There is no other addressing mode (41_load_immediate.md). -/

namespace Sys2Proof.Machine

/-- The state with the byte `v` in register `i` (rule R10: no register is hardwired). -/
def State.setReg (s : State) (i : Nat) (v : Byte) (h : i < 8) : State :=
  { s with regs := s.regs.set i v h }

/-- `RegRead(i)`, the checked read (rule R12). -/
def regRead (i : Byte) (s : State) : Except Fault Byte :=
  if h : i.toNat < Config.nreg then .ok (s.regs[i.toNat]'h) else .error (.invalidRegisterIndex i)

/-- `RegWrite(i, v)`, the checked write of a natural number reduced modulo 256 (rule R13). -/
def regWrite (i : Byte) (v : Nat) (s : State) : Except Fault State :=
  if h : i.toNat < Config.nreg then .ok (s.setReg i.toNat (wrap8 v) h) else .error (.invalidRegisterIndex i)

/-- An immediate operand: the byte's own number, 0 to 255, all legal (rule R55). -/
def immediate (b : Byte) : Nat :=
  b.toNat

end Sys2Proof.Machine
end

