-- ==== Sys2Proof/Machine/Alu.lean ====
section
/-! DEFINITION. The ALU (rules R100 to R103, R105) and MUL, the one instruction that reaches it (rule R104). -/

namespace Sys2Proof.Machine

/-- Both registers read, destination first, then the result of `f` written to the destination (rule R100, decision
D18). `f` is exact on natural numbers; the write reduces it modulo 256. -/
def aluBinary (f : Nat → Nat → Nat) (d s : Byte) (st : State) : Except Fault State :=
  match regRead d st with
  | .error e => .error e
  | .ok p =>
    match regRead s st with
    | .error e => .error e
    | .ok q => regWrite d (f p.toNat q.toNat) st

/-- `AluApply(op, d, s)` (rule R100). ADD has no opcode (rule R60) and stands here as the ALU's own operation
(rule R101). -/
def aluApply (op : AluOp) (d s : Byte) (st : State) : Except Fault State :=
  match op with
  | .add => aluBinary (fun p q => p + q) d s st
  | .mul => aluBinary (fun p q => p * q) d s st
  | .other tag => .error (.unsupportedALUOperation (.other tag))

/-- The handler `MUL(a, b)`: the ALU's MUL with destination a and source b (rule R104). -/
def handleMul (a b : Byte) (s : State) : Except Fault State :=
  aluApply .mul a b s

/-- MUL a, b from dispatch to the end of the step (rules R76, R78, R104). -/
def execMul (a b : Byte) (s : State) : Host.Outcome State Fault Refusal :=
  complete (opLength opMul) s (handleMul a b s)

end Sys2Proof.Machine
end

