-- ==== Sys2Proof/Machine/Halt.lean ====
section
/-! DEFINITION. HLT, the halt instruction (rule R110). -/

namespace Sys2Proof.Machine

/-- The handler `HLT(a, b)`: the run state becomes `Halted` (rule R110; both operand bytes are ignored). -/
def handleHlt (s : State) : Except Fault State :=
  .ok (s.setRunState .halted)

/-- HLT from dispatch to the end of the step: pc still advances (rules R78, R110). -/
def execHlt (s : State) : Host.Outcome State Fault Refusal :=
  complete (opLength opHlt) s (handleHlt s)

end Sys2Proof.Machine
end

