-- ==== Sys2Proof/Machine/LoadImmediate.lean ====
section
/-! DEFINITION. LDI, the load-immediate instruction (rule R90). -/

namespace Sys2Proof.Machine

/-- The handler `LDI(a, b)`: `RegWrite(a, b)` (rule R90). -/
def handleLdi (a b : Byte) (s : State) : Except Fault State :=
  regWrite a (immediate b) s

/-- LDI a, b from dispatch to the end of the step (rules R76, R78, R90). -/
def execLdi (a b : Byte) (s : State) : Host.Outcome State Fault Refusal :=
  complete (opLength opLdi) s (handleLdi a b s)

end Sys2Proof.Machine
end

