-- ==== Sys2Proof/Machine/Output.lean ====
section
/-! DEFINITION. PRN, the output instruction (rule R95). -/

namespace Sys2Proof.Machine

/-- The handler `PRN(a, b)`: read register a, then emit `Print(a, v)` (rule R95; operand b is ignored). -/
def handlePrn (a : Byte) (s : State) : Except Fault State :=
  match regRead a s with
  | .ok v => .ok (s.emit (.print a v))
  | .error f => .error f

/-- PRN a from dispatch to the end of the step (rules R76, R78, R95). -/
def execPrn (a : Byte) (s : State) : Host.Outcome State Fault Refusal :=
  complete (opLength opPrn) s (handlePrn a s)

end Sys2Proof.Machine
end

