-- ==== Sys2Proof/Machine/Dispatch.lean ====
section
/-! DEFINITION. Dispatch: one arm for each instruction (rules R57, R76). -/

namespace Sys2Proof.Machine

/-- Phase 4 of a step and, after it, phase 6: the handler of an instruction and the advance of pc (rules R76, R78). -/
def exec (i : Instr) (s : State) : Host.Outcome State Fault Refusal :=
  match i with
  | .hlt => Sys2Proof.Machine.execHlt s
  | .ldi a b => Sys2Proof.Machine.execLdi a b s
  | .prn a => Sys2Proof.Machine.execPrn a s
  | .mul a b => Sys2Proof.Machine.execMul a b s

end Sys2Proof.Machine
end

