-- ==== Sys2Proof/Machine/Fetch.lean ====
section
/-! DEFINITION. The fetch phases of a step (rules R71, R74, R75) and the unsupported-opcode path (rule R77). -/

namespace Sys2Proof.Machine

/-- Phases 1 and 3: the opcode at pc, then operand a at pc+1, then operand b at pc+2, always all three; the sums are
exact (rules R70, R71, R74, R75). -/
def fetch (s : State) : Except Fault Window :=
  match memRead s.pc.toNat s with
  | .error f => .error f
  | .ok o =>
    match memRead (s.pc.toNat + 1) s with
    | .error f => .error f
    | .ok a =>
      match memRead (s.pc.toNat + 2) s with
      | .error f => .error f
      | .ok b => .ok ⟨o, a, b⟩

/-- Phase 5: a diagnostic event and nothing else, then phase 6 skips the decoded length (rules R59, R77, R124). -/
def skipUnsupported (opcode : Byte) (s : State) : Host.Outcome State Fault Refusal :=
  complete (opLength opcode) s (.ok (s.emit (.diag s.pc opcode)))

/-- The three bytes of an instruction, written where the next fetch reads them; a byte that would stand past the end
of memory is not written. -/
def placeWindow (s : State) (w : Window) : State :=
  s.setMem <|
    [(s.pc.toNat, w.opcode), (s.pc.toNat + 1, w.operandA), (s.pc.toNat + 2, w.operandB)].foldl
      (fun m c => if c.1 < Config.memSize then m.poke c.1 c.2 else m) s.mem

end Sys2Proof.Machine
end

