-- ==== Sys2Proof/Machine/Step.lean ====
section
/-! DEFINITION. One step of the execution loop (rules R70, R80), and placing an instruction where the next step fetches. -/

namespace Sys2Proof.Machine

/-- `Step()` (rule R70): enabled only while `Running`; in `Idle`, `Halted` and `Faulted` the core does nothing (rule
R80), which is written as the same state (log entry 1). -/
def step (s : State) : Host.Outcome State Fault Refusal :=
  match s.runState with
  | .running =>
    match fetch s with
    | .error f => raise f s
    | .ok w =>
      match decode w with
      | .ok i => exec i s
      | .error (.unsupportedOpcode opcode) => skipUnsupported opcode s
  | .idle => .next s
  | .halted => .next s
  | .faulted => .next s

/-- The state in which the very next step fetches and runs the instruction whose bits are `w`: its three bytes stand at
pc (which needs pc at most 253, rule R158) and the core is `Running`. It stands for the host's load and start
(rules R152, R154; log entry 2). -/
def State.withFetchWord (s : State) (nbits w : Nat) : State :=
  (placeWindow s (windowOfTableWord nbits w)).setRunState .running

end Sys2Proof.Machine
end

