-- ==== Sys2Proof/Machine/Lifecycle.lean ====
section
/-! DEFINITION. The host's three operations, reset, load and start (rules R6, R150 to R155), and the order a host keeps
(rules R6, R153, R155, decision D14). -/

namespace Sys2Proof.Machine

/-- Reset: every piece of state at its creation value, from any state (rules R150, R151). -/
def applyReset (_ : State) : State :=
  State.reset

/-- What a load request comes to (rules R152, R153). -/
inductive LoadReply where
  /-- The image was written. -/
  | accepted
  /-- The image is longer than memory: no byte was written. -/
  | refused
  /-- The core is not `Idle`: nothing happened. -/
  | ignored
  deriving DecidableEq, Repr

/-- `MemWrite` of an image's bytes at ascending addresses from `k` (rule R152). -/
def storeImage (k : Nat) (img : List Byte) (s : State) : Except Fault State :=
  match img with
  | [] => .ok s
  | v :: rest =>
    match memWrite k v s with
    | .error f => .error f
    | .ok t => storeImage (k + 1) rest t

/-- `Load(img)` (rules R152, R153): only in `Idle`, and an image longer than memory is refused whole. -/
def applyLoad (img : List Byte) (s : State) : LoadReply × State :=
  if s.runState ≠ .idle then (.ignored, s)
  else if img.length > Config.memSize then (.refused, s)
  else
    match storeImage 0 img s with
    | .ok t => (.accepted, t)
    | .error _ => (.refused, s)

/-- `Start()`: from `Idle` to `Running`, ignored otherwise (rule R154). -/
def applyStart (s : State) : State :=
  match s.runState with
  | .idle => s.setRunState .running
  | .running => s
  | .halted => s
  | .faulted => s

/-- Reset, load, start, in that order (rule R155); none where the load is refused, since such a core is never started
(rule R125, decision D13). -/
def boot (img : List Byte) : Option State :=
  match applyLoad img State.reset with
  | (.accepted, t) => some (applyStart t)
  | (.refused, _) => none
  | (.ignored, _) => none

/-- A request of the host (rule R6: it can do exactly three things). -/
inductive HostOp where
  | reset
  | load (img : List Byte)
  | start
  deriving DecidableEq, Repr

/-- What the host has loaded since the last reset. It is the host's own memory of its protocol and no state of the
core (log entry 4). -/
inductive LoadPhase where
  /-- No load yet. -/
  | fresh
  /-- One image was accepted. -/
  | loaded
  /-- One image was refused. -/
  | refused
  deriving DecidableEq, Repr

/-- The core and the host that drives it. -/
structure Session where
  core : State
  phase : LoadPhase
  deriving DecidableEq, Repr

/-- The session at creation (rule R150). -/
def Session.initial : Session where
  core := State.reset
  phase := .fresh

/-- One request of the host: at most one load for each reset (rule R153, decision D14), and no start after a refused
load (rule R125, decision D13). -/
def Session.apply (c : Session) (op : HostOp) : Session :=
  match op with
  | .reset => { core := applyReset c.core, phase := .fresh }
  | .load img =>
    match c.phase with
    | .fresh =>
      match applyLoad img c.core with
      | (.accepted, t) => { core := t, phase := .loaded }
      | (.refused, t) => { core := t, phase := .refused }
      | (.ignored, t) => { core := t, phase := .fresh }
    | .loaded => c
    | .refused => c
  | .start =>
    match c.phase with
    | .fresh => { c with core := applyStart c.core }
    | .loaded => { c with core := applyStart c.core }
    | .refused => c

end Sys2Proof.Machine
end

