-- ==== Sys2Proof/WellFormed.lean ====
section
/-! DEFINITION. Which instructions keep software's duty about register operands (rules R156 item 4, R159:
"Register indices used as operands must be in [0,8)"). The machine gives the others a meaning as well: they raise
`InvalidRegisterIndex`. -/

namespace Sys2Proof

/-- The operand byte names one of the eight registers (rule R55: legal values 0..7). -/
def regIndexOk (i : Byte) : Bool :=
  decide (i.toNat < Config.nreg)

/-- Every register operand of the instruction is in range (rule R159). An immediate is always legal (rule R55). -/
def Instr.wf : Instr → Bool
  | .hlt => true
  | .ldi a _ => regIndexOk a
  | .prn a => regIndexOk a
  | .mul a b => regIndexOk a && regIndexOk b

end Sys2Proof
end

