-- ==== Sys2Proof/Safety.lean ====
section
/-! DEFINITION. What claims about CORE are stated in: the bytes a step fetches, the end of a run (rule R157), the invariant
of every reachable state (rules R19, R20, R121, R122, R157, R164), reachability under the host's protocol, what follows
without a reset, and the spec's per-step algorithm (rule R70) on one page. -/

namespace Sys2Proof.Machine

/-- The core is `Running` and the three bytes of the next fetch are `o`, `a`, `b`, all in range (rules R70, R158). -/
abbrev FetchesAtPc (s : State) (o a b : Byte) : Prop :=
  s.runState = .running ∧ s.pc.toNat ≤ 253 ∧ s.mem.peek s.pc.toNat = o ∧
    s.mem.peek (s.pc.toNat + 1) = a ∧ s.mem.peek (s.pc.toNat + 2) = b

/-- The byte is one of the four recognised opcodes, written out from rule R57. -/
abbrev Recognised (o : Byte) : Prop :=
  o = 0x01#8 ∨ o = 0x82#8 ∨ o = 0x47#8 ∨ o = 0xA2#8

/-- A run is over when it is `Halted` or `Faulted` (rule R157). -/
abbrev RunOver (s : State) : Prop :=
  s.runState = .halted ∨ s.runState = .faulted

/-- A run is successful when it is `Halted` (rule R157). -/
abbrev RunSucceeded (s : State) : Prop :=
  s.runState = .halted

/-- A latched cause agrees with the pc it was raised at and with the bytes there (rules R121, R122, R123). -/
def LatchFits (s : State) : Fault → Prop
  | .outOfBoundsAccess addr =>
    (s.pc.toNat = 254 ∧ addr = 256) ∨ (s.pc.toNat = 255 ∧ addr = 256) ∨
      (s.pc.toNat = 256 ∧ addr = 256) ∨ (s.pc.toNat = 257 ∧ addr = 257)
  | .invalidRegisterIndex i =>
    8 ≤ i.toNat ∧ s.pc.toNat ≤ 253 ∧
      (((s.mem.peek s.pc.toNat = 0x82#8 ∨ s.mem.peek s.pc.toNat = 0x47#8 ∨ s.mem.peek s.pc.toNat = 0xA2#8) ∧
          s.mem.peek (s.pc.toNat + 1) = i) ∨
        (s.mem.peek s.pc.toNat = 0xA2#8 ∧ (s.mem.peek (s.pc.toNat + 1)).toNat < 8 ∧
          s.mem.peek (s.pc.toNat + 2) = i))
  | .unsupportedALUOperation _ => False

/-- An event the core can have emitted (rule R20): a printed index is 0..7; a diagnostic stands at 0..253 and names the
unrecognised byte there. -/
def EventFits (m : Memory) : Event → Prop
  | .print i _ => i.toNat < 8
  | .diag p o => p.toNat ≤ 253 ∧ m.peek p.toNat = o ∧ ¬ Recognised o

/-- What holds of the core between any two steps. -/
structure CoreInv (s : State) : Prop where
  /-- Memory keeps its canonical form. -/
  memCanonical : s.mem.wf = true
  /-- Rule R164: pc never exceeds 257. -/
  pcBound : s.pc.toNat ≤ 257
  /-- Rule R19: the latch is empty exactly while the core is not `Faulted`. -/
  latchIffFaulted : s.fault = none ↔ s.runState ≠ .faulted
  /-- Rules R121 to R123: only a reachable cause is latched. -/
  latchFits : ∀ f, s.fault = some f → LatchFits s f
  /-- Rules R150, R153, R154: before start nothing but memory has changed. -/
  idleFresh : s.runState = .idle → s.pc = 0#9 ∧ s.regs = Vector.replicate 8 0#8 ∧ s.trace = []
  /-- Rule R157: a halted core stands just after the HLT that executed. -/
  haltedAfterHlt : s.runState = .halted →
    1 ≤ s.pc.toNat ∧ s.pc.toNat ≤ 254 ∧ s.mem.peek (s.pc.toNat - 1) = 0x01#8
  /-- Rule R164: at most one event for each completed step, at most 254 of them. -/
  traceBound : s.trace.length ≤ s.pc.toNat ∧ s.trace.length ≤ 254
  /-- Rule R20: every event is one the core can emit. -/
  traceFits : ∀ e ∈ s.trace, EventFits s.mem e

/-- The sessions that host requests and steps of the core lead to from creation (rules R4 to R6). -/
inductive Reachable : Session → Prop where
  | initial : Reachable Session.initial
  | host (c : Session) (op : HostOp) (h : Reachable c) : Reachable (c.apply op)
  | step (c : Session) (t : State) (h : Reachable c) (hs : step c.core = .next t) :
      Reachable { c with core := t }

/-- The second session comes from the first by steps and by host requests, none of them a reset, in any order and
number (rules R6, R151). -/
inductive WithoutReset (c : Session) : Session → Prop where
  | refl : WithoutReset c c
  | host (d : Session) (op : HostOp) (h : WithoutReset c d) (hop : op ≠ .reset) : WithoutReset c (d.apply op)
  | step (d : Session) (t : State) (h : WithoutReset c d) (hs : step d.core = .next t) :
      WithoutReset c { d with core := t }

/-- The per-step algorithm of rule R70 on one page, with none of the machine's parts: no table, no decoder, no handlers,
no ALU. The machine is stated to agree with it; it is no part of the machine. -/
def perStepAlgorithm (s : State) : State :=
  if s.runState ≠ .running then s
  else if s.pc.toNat ≥ 256 then
    { s with runState := .faulted, fault := some (.outOfBoundsAccess s.pc.toNat) }
  else if s.pc.toNat + 1 ≥ 256 then
    { s with runState := .faulted, fault := some (.outOfBoundsAccess (s.pc.toNat + 1)) }
  else if s.pc.toNat + 2 ≥ 256 then
    { s with runState := .faulted, fault := some (.outOfBoundsAccess (s.pc.toNat + 2)) }
  else
    let o := s.mem.peek s.pc.toNat
    let a := s.mem.peek (s.pc.toNat + 1)
    let b := s.mem.peek (s.pc.toNat + 2)
    let next := BitVec.ofNat 9 (s.pc.toNat + (o.toNat / 64 + 1))
    if o = 0x82#8 then
      if h : a.toNat < 8 then { s with regs := s.regs.set a.toNat b h, pc := next }
      else { s with runState := .faulted, fault := some (.invalidRegisterIndex a) }
    else if o = 0x47#8 then
      if h : a.toNat < 8 then { s with trace := s.trace ++ [.print a s.regs[a.toNat]], pc := next }
      else { s with runState := .faulted, fault := some (.invalidRegisterIndex a) }
    else if o = 0xA2#8 then
      if ha : a.toNat < 8 then
        if hb : b.toNat < 8 then
          { s with regs := s.regs.set a.toNat (s.regs[a.toNat] * s.regs[b.toNat]) ha, pc := next }
        else { s with runState := .faulted, fault := some (.invalidRegisterIndex b) }
      else { s with runState := .faulted, fault := some (.invalidRegisterIndex a) }
    else if o = 0x01#8 then { s with runState := .halted, pc := next }
    else { s with trace := s.trace ++ [.diag s.pc o], pc := next }

/-- A register operand under a renaming of the eight registers; an index that names no register stays (rule R11). -/
def renameIndex (r : Fin 8 → Fin 8) (i : Byte) : Byte :=
  if h : i.toNat < 8 then BitVec.ofNat 8 (r ⟨i.toNat, h⟩).val else i

/-- An instruction with its register operands renamed; the immediate stays (rule R55). -/
def renameInstr (r : Fin 8 → Fin 8) : Instr → Instr
  | .hlt => .hlt
  | .ldi a b => .ldi (renameIndex r a) b
  | .prn a => .prn (renameIndex r a)
  | .mul a b => .mul (renameIndex r a) (renameIndex r b)

/-- An event with its register index renamed. -/
def renameEvent (r : Fin 8 → Fin 8) : Event → Event
  | .print a v => .print (renameIndex r a) v
  | .diag p o => .diag p o

/-- The instructions of a list, one after another, each from the state the one before left (rule R161). -/
def execInOrder : List Instr → State → Host.Outcome State Fault Refusal
  | [], s => .next s
  | i :: rest, s =>
    match exec i s with
    | .next t => execInOrder rest t
    | .fault f => .fault f
    | .refused r => .refused r

/-- The bytes `bs` stand in memory at ascending addresses from `k` (rules R35, R50). -/
def StandsAt (m : Memory) (k : Nat) (bs : List Byte) : Prop :=
  ∀ (j : Nat) (h : j < bs.length), m.peek (k + j) = bs[j]

end Sys2Proof.Machine
end

