-- ==== Sys2Proof/Certificates/Slice0/Obligations.lean ====
section
/-! DEFINITION. The statements about CORE, each a Prop; docstrings name the rule of spec/ a statement formalises. -/

open Sys2Proof Sys2Proof.Machine

/-! ### Encoding -/

/-- One word of each row of the opcode map, written out bit by bit from rule R57, and the byte a reader might take for
ADD (rule R60). -/
def Obligations.DecodesTheTableWords : Prop :=
  decode ⟨0b00000001#8, 0x12#8, 0x34#8⟩ = .ok .hlt ∧
  decode ⟨0b10000010#8, 0x03#8, 0xFF#8⟩ = .ok (.ldi 0x03#8 0xFF#8) ∧
  decode ⟨0b01000111#8, 0x07#8, 0x01#8⟩ = .ok (.prn 0x07#8) ∧
  decode ⟨0b10100010#8, 0x02#8, 0x01#8⟩ = .ok (.mul 0x02#8 0x01#8) ∧
  decode ⟨0b10100000#8, 0x02#8, 0x02#8⟩ = .error (.unsupportedOpcode 0b10100000#8)

/-- Rule R57: the dispatch table, whole byte by whole byte, with each row's operand count in bits 7:6 and its format's
length, and nothing else in it. -/
def Obligations.DispatchTableIsExact : Prop :=
  ∀ o a b : Byte,
    (o = 0b00000001#8 → decode ⟨o, a, b⟩ = .ok .hlt ∧ o.toNat / 64 = 0 ∧ opLength o = 1 ∧ encode .hlt = [o]) ∧
    (o = 0b10000010#8 →
      decode ⟨o, a, b⟩ = .ok (.ldi a b) ∧ o.toNat / 64 = 2 ∧ opLength o = 3 ∧ encode (.ldi a b) = [o, a, b]) ∧
    (o = 0b01000111#8 →
      decode ⟨o, a, b⟩ = .ok (.prn a) ∧ o.toNat / 64 = 1 ∧ opLength o = 2 ∧ encode (.prn a) = [o, a]) ∧
    (o = 0b10100010#8 →
      decode ⟨o, a, b⟩ = .ok (.mul a b) ∧ o.toNat / 64 = 2 ∧ opLength o = 3 ∧ encode (.mul a b) = [o, a, b]) ∧
    (¬ Recognised o → decode ⟨o, a, b⟩ = .error (.unsupportedOpcode o))

/-- Rule R51: the length is bits 7:6 of the opcode plus one, for every byte, recognised or not; for a decoded
instruction it is the number of its bytes. -/
def Obligations.LengthIsBitsSevenSixPlusOne : Prop :=
  (∀ o : Byte, opLength o = (o.extractLsb 7 6).toNat + 1) ∧
  ∀ (w : Window) (i : Instr), decode w = .ok i → opLength w.opcode = (encode i).length

/-- Rule R52: the bytes 0xC0 to 0xFF have length 4, none is recognised, only two operand bytes are fetched, and the
byte at pc+3 is skipped unread: the step is the same whatever stands there. -/
def Obligations.HighOpcodesSkipFourBytes : Prop :=
  ∀ (s : State) (o a b : Byte), FetchesAtPc s o a b → 0xC0 ≤ o.toNat →
    opLength o = 4 ∧ ¬ Recognised o ∧
    step s = .next { s with trace := s.trace ++ [.diag s.pc o], pc := s.pc + 4#9 } ∧
    ∀ m : Memory, (∀ k, k ≤ 2 → m.peek (s.pc.toNat + k) = s.mem.peek (s.pc.toNat + k)) →
      step { s with mem := m } =
        .next { s with mem := m, trace := s.trace ++ [.diag s.pc o], pc := s.pc + 4#9 }

/-- Rules R50, R54: decoding the encoding of any instruction, with at least the two further bytes a fetch reads behind
it, gives the instruction back, and the length its opcode byte gives is the number of its bytes. -/
def Obligations.DecodeOfEncodedInstruction : Prop :=
  ∀ (i : Instr) (p q : Byte) (rest : List Byte), ∃ w,
    Window.ofBytes (encode i ++ p :: q :: rest) = some w ∧ decode w = .ok i ∧
    opLength w.opcode = (encode i).length

/-- Rules R54, R57, R61: the other direction. A window that decodes to an instruction begins with that instruction's
encoding, and the bytes behind it play no part: any window that begins with it decodes to the same instruction. -/
def Obligations.EncodeOfDecodedWindow : Prop :=
  ∀ (w : Window) (i : Instr), decode w = .ok i →
    encode i = w.bytes.take (opLength w.opcode) ∧
    ∀ w' : Window, w'.bytes.take (opLength w.opcode) = encode i → decode w' = .ok i

/-! ### The step -/

/-- A step runs the decoded instruction: while `Running`, with pc at most 253, where the three bytes at pc decode to an
instruction, the step is exec of it. That exec covers the handler and the advance of pc together, so that nothing but the
fetch stands around it, is the model's choice (log entry 8); rule R76's handlers do not move pc, and
`ExecIsHandlerThenAdvance` says how exec is put together from them. -/
def Obligations.StepRunsDecodedInstruction : Prop :=
  ∀ (s : State) (o a b : Byte) (i : Instr), FetchesAtPc s o a b → decode ⟨o, a, b⟩ = .ok i → step s = exec i s

/-- The phases inside exec (rules R76, R78; that exec is the two phases together is the model's choice, log entry 8).
exec is the instruction's handler and then the advance of pc by the instruction's length, or, where the handler raises,
the fault entry from the state before it. A handler never moves pc: it changes one register, the trace or the run
state, and raises nothing but `InvalidRegisterIndex`. -/
def Obligations.ExecIsHandlerThenAdvance : Prop :=
  ∀ (a b : Byte) (s : State),
    ∀ h ∈ [(Instr.hlt, handleHlt s), (.ldi a b, handleLdi a b s), (.prn a, handlePrn a s), (.mul a b, handleMul a b s)],
      (∀ t, h.2 = .ok t →
        t.pc = s.pc ∧ t.mem = s.mem ∧ t.fault = s.fault ∧
        exec h.1 s = .next { t with pc := t.pc + BitVec.ofNat 9 (encode h.1).length }) ∧
      ∀ f, h.2 = .error f →
        (∃ k, f = .invalidRegisterIndex k) ∧ exec h.1 s = .next { s with runState := .faulted, fault := some f }

/-- Rule R70: a step of the running core is the per-step algorithm, phase for phase, whatever the state. -/
def Obligations.StepFollowsPerStepAlgorithm : Prop :=
  ∀ s : State, s.runState = .running → step s = .next (perStepAlgorithm s)

/-- Rules R59, R77: an unsupported opcode emits its diagnostic, changes nothing else and is skipped by its decoded
length; at 254 or 255 the fetch fault comes first and there is no diagnostic. -/
def Obligations.UnsupportedOpcodeIsSkipped : Prop :=
  (∀ (s : State) (o a b : Byte), FetchesAtPc s o a b → ¬ Recognised o →
    step s = .next { s with
      trace := s.trace ++ [.diag s.pc o], pc := s.pc + BitVec.ofNat 9 (o.toNat / 64 + 1) }) ∧
  ∀ s : State, s.runState = .running → s.pc.toNat = 254 ∨ s.pc.toNat = 255 →
    step s = .next { s with runState := .faulted, fault := some (.outOfBoundsAccess 256) }

/-- Rule R78: pc advances by the decoded length for every opcode, recognised or not, HLT included, with no wrap, and
does not move when the step faulted. -/
def Obligations.PcAdvancesByDecodedLength : Prop :=
  ∀ s t : State, s.runState = .running → step s = .next t →
    (t.runState = .faulted → t.pc = s.pc) ∧
    (t.runState ≠ .faulted →
      t.pc.toNat = s.pc.toNat + ((s.mem.peek s.pc.toNat).toNat / 64 + 1) ∧ t.pc.toNat ≤ 257)

/-- Rule R80: a core that is not `Running` does nothing. That this is written as a step to the same state, and not as
no step, is the model's choice (log entry 1). -/
def Obligations.NothingHappensUnlessRunning : Prop :=
  ∀ s : State, s.runState = .idle ∨ s.runState = .halted ∨ s.runState = .faulted → step s = .next s

/-- Every step answers a next state, and so does exec of every instruction in every state. Two choices of the model stand
behind it: a fault is TAKEN as a next state, the entry rule R128 describes, and `Outcome.fault` is never answered (log
entry 6); outside `Running` a step is the same state (log entry 1). -/
def Obligations.NothingIsRefused : Prop :=
  (∀ s : State, ∃ t, step s = .next t) ∧ ∀ (i : Instr) (s : State), ∃ t, exec i s = .next t

/-- Rules R36, R42: nothing the running core does changes a memory cell, over any number of steps. -/
def Obligations.RunsKeepMemory : Prop :=
  ∀ (k : Nat) (s t : State), Sys2Proof.core.run k s = .next t →
    t.mem = s.mem ∧ ∀ addr, memRead addr t = memRead addr s

/-- Rules R39, R54: a step depends on memory only through the three cells it fetches. -/
def Obligations.StepReadsOnlyThreeCells : Prop :=
  ∀ (s t : State) (m : Memory), step s = .next t →
    (∀ k, k ≤ 2 → m.peek (s.pc.toNat + k) = s.mem.peek (s.pc.toNat + k)) →
    step { s with mem := m } = .next { t with mem := m }

/-- Rule R158: at 254 and 255 no instruction executes, whatever the bytes. At 253 every one does, but only HLT ends the
run cleanly: LDI and MUL leave pc at 256, PRN at 255, an unsupported opcode at 254 to 257, and the next step faults; with
a register operand of 8 or more the step at 253 itself faults. -/
def Obligations.EndOfMemoryHazard : Prop :=
  (∀ s : State, s.runState = .running → s.pc.toNat = 254 ∨ s.pc.toNat = 255 →
    step s = .next { s with runState := .faulted, fault := some (.outOfBoundsAccess 256) }) ∧
  ∀ (s : State) (o a b : Byte), FetchesAtPc s o a b → s.pc.toNat = 253 →
    (o = 0x01#8 → step s = .next { s with runState := .halted, pc := 254#9 }) ∧
    (o = 0x82#8 ∨ o = 0xA2#8 → a.toNat < 8 → (o = 0xA2#8 → b.toNat < 8) →
      ∃ t, step s = .next t ∧ t.runState = .running ∧ t.pc = 256#9 ∧
        step t = .next { t with runState := .faulted, fault := some (.outOfBoundsAccess 256) }) ∧
    (o = 0x47#8 → a.toNat < 8 →
      ∃ t, step s = .next t ∧ t.runState = .running ∧ t.pc = 255#9 ∧
        step t = .next { t with runState := .faulted, fault := some (.outOfBoundsAccess 256) }) ∧
    (¬ Recognised o →
      ∃ t, step s = .next t ∧ t.runState = .running ∧ t.pc.toNat = 254 + o.toNat / 64 ∧
        step t = .next { t with runState := .faulted, fault := some (.outOfBoundsAccess (max t.pc.toNat 256)) }) ∧
    (o = 0x82#8 ∨ o = 0x47#8 ∨ o = 0xA2#8 → 8 ≤ a.toNat →
      step s = .next { s with runState := .faulted, fault := some (.invalidRegisterIndex a) }) ∧
    (o = 0xA2#8 → a.toNat < 8 → 8 ≤ b.toNat →
      step s = .next { s with runState := .faulted, fault := some (.invalidRegisterIndex b) })

/-! ### The instructions -/

/-- Rule R90: LDI. Its encoding; its whole effect for a legal index; its fault for an index of 8 or more, before any
write; that a step runs it; and the earlier fetch fault at 254 and 255. -/
def Obligations.LdiLoadsImmediate : Prop :=
  ∀ (a b : Byte) (s : State),
    encode (.ldi a b) = [0b10000010#8, a, b] ∧ decode ⟨0b10000010#8, a, b⟩ = .ok (.ldi a b) ∧
    (∀ h : a.toNat < 8,
      exec (.ldi a b) s = .next { s with regs := s.regs.set a.toNat b h, pc := s.pc + 3#9 }) ∧
    (8 ≤ a.toNat →
      exec (.ldi a b) s = .next { s with runState := .faulted, fault := some (.invalidRegisterIndex a) }) ∧
    (FetchesAtPc s 0x82#8 a b → step s = exec (.ldi a b) s) ∧
    (s.runState = .running → s.pc.toNat = 254 ∨ s.pc.toNat = 255 →
      step s = .next { s with runState := .faulted, fault := some (.outOfBoundsAccess 256) })

/-- Rule R95: PRN. Its encoding; its whole effect for a legal index (one `Print` event, nothing else); its fault for an
index of 8 or more, before the emit; that a step runs it whatever the ignored byte is; and the earlier fetch fault. -/
def Obligations.PrnPrintsRegister : Prop :=
  ∀ (a b : Byte) (s : State),
    encode (.prn a) = [0b01000111#8, a] ∧ decode ⟨0b01000111#8, a, b⟩ = .ok (.prn a) ∧
    (∀ _h : a.toNat < 8,
      exec (.prn a) s =
        .next { s with trace := s.trace ++ [.print a s.regs[a.toNat]], pc := s.pc + 2#9 }) ∧
    (8 ≤ a.toNat →
      exec (.prn a) s = .next { s with runState := .faulted, fault := some (.invalidRegisterIndex a) }) ∧
    (FetchesAtPc s 0x47#8 a b → step s = exec (.prn a) s) ∧
    (s.runState = .running → s.pc.toNat = 254 ∨ s.pc.toNat = 255 →
      step s = .next { s with runState := .faulted, fault := some (.outOfBoundsAccess 256) })

/-- Rule R104: MUL. Its encoding; its whole effect for legal indices, equal ones too; its faults, operand a first,
nothing written; that a step runs it; and the earlier fetch fault. -/
def Obligations.MulMultipliesRegisters : Prop :=
  ∀ (a b : Byte) (s : State),
    encode (.mul a b) = [0b10100010#8, a, b] ∧ decode ⟨0b10100010#8, a, b⟩ = .ok (.mul a b) ∧
    (∀ (ha : a.toNat < 8) (_hb : b.toNat < 8),
      exec (.mul a b) s = .next { s with
        regs := s.regs.set a.toNat (BitVec.ofNat 8 ((s.regs[a.toNat].toNat * s.regs[b.toNat].toNat) % 256)) ha,
        pc := s.pc + 3#9 }) ∧
    (8 ≤ a.toNat →
      exec (.mul a b) s = .next { s with runState := .faulted, fault := some (.invalidRegisterIndex a) }) ∧
    (a.toNat < 8 → 8 ≤ b.toNat →
      exec (.mul a b) s = .next { s with runState := .faulted, fault := some (.invalidRegisterIndex b) }) ∧
    (FetchesAtPc s 0xA2#8 a b → step s = exec (.mul a b) s) ∧
    (s.runState = .running → s.pc.toNat = 254 ∨ s.pc.toNat = 255 →
      step s = .next { s with runState := .faulted, fault := some (.outOfBoundsAccess 256) })

/-- Rule R110: HLT. Its encoding; its whole effect; that a step runs it whatever the two ignored bytes are; the earlier
fetch fault, when it does not execute; and that halting is final: neither a step nor any request of the host but
reset changes a halted core. -/
def Obligations.HltHaltsForGood : Prop :=
  ∀ (a b : Byte) (s : State),
    encode .hlt = [0b00000001#8] ∧ decode ⟨0b00000001#8, a, b⟩ = .ok .hlt ∧
    exec .hlt s = .next { s with runState := .halted, pc := s.pc + 1#9 } ∧
    (FetchesAtPc s 0x01#8 a b → step s = exec .hlt s) ∧
    (s.runState = .running → s.pc.toNat = 254 ∨ s.pc.toNat = 255 →
      step s = .next { s with runState := .faulted, fault := some (.outOfBoundsAccess 256) }) ∧
    (s.runState = .halted →
      (∀ t, step s = .next t → t = s) ∧
      ∀ (p : LoadPhase) (op : HostOp), op ≠ .reset → (Session.apply ⟨s, p⟩ op).core = s)

/-- The frame of the register writers LDI and MUL: with legal register operands only the destination register and pc can
change; with a register operand of 8 or more (LDI's a; MUL's a or b; LDI's b is an immediate and no register) only the
run state and the latch change (rules R90, R104, R128). -/
def Obligations.RegisterWritersFrame : Prop :=
  ∀ (a b : Byte) (s t : State),
    (exec (.ldi a b) s = .next t →
      (∀ (j : Nat) (_h : j < 8), j ≠ a.toNat → t.regs[j] = s.regs[j]) ∧
      (∀ addr, t.mem.peek addr = s.mem.peek addr) ∧ t.trace = s.trace ∧
      ((a.toNat < 8 ∧ t.runState = s.runState ∧ t.fault = s.fault) ∨
        (8 ≤ a.toNat ∧ t.runState = .faulted ∧ t.regs = s.regs ∧ t.pc = s.pc))) ∧
    (exec (.mul a b) s = .next t →
      (∀ (j : Nat) (_h : j < 8), j ≠ a.toNat → t.regs[j] = s.regs[j]) ∧
      (∀ addr, t.mem.peek addr = s.mem.peek addr) ∧ t.trace = s.trace ∧
      ((a.toNat < 8 ∧ b.toNat < 8 ∧ t.runState = s.runState ∧ t.fault = s.fault) ∨
        ((8 ≤ a.toNat ∨ 8 ≤ b.toNat) ∧ t.runState = .faulted ∧ t.regs = s.regs ∧ t.pc = s.pc)))

/-- The frame of PRN and HLT, which write no register: every register and every memory cell is unchanged; PRN changes
the run state and the latch only on a bad index; HLT leaves the latch and the trace (rules R95, R110, R128). -/
def Obligations.PrnAndHltFrame : Prop :=
  (∀ (a : Byte) (s t : State), exec (.prn a) s = .next t →
    t.regs = s.regs ∧ (∀ addr, t.mem.peek addr = s.mem.peek addr) ∧
    ((t.runState = s.runState ∧ t.fault = s.fault ∧ t.trace.length = s.trace.length + 1) ∨
      (8 ≤ a.toNat ∧ t.runState = .faulted ∧ t.trace = s.trace ∧ t.pc = s.pc))) ∧
  ∀ s t : State, exec .hlt s = .next t →
    t.regs = s.regs ∧ (∀ addr, t.mem.peek addr = s.mem.peek addr) ∧ t.fault = s.fault ∧ t.trace = s.trace

/-- Rule R159: an instruction whose register operands are all in 0..7 completes from every running state, with pc moved
past its bytes and nothing latched; one with an operand of 8 or more stops the core with `InvalidRegisterIndex`, the
whole operand byte latched. -/
def Obligations.WellFormedInstructionsComplete : Prop :=
  ∀ (i : Instr) (s : State), s.runState = .running →
    (i.wf = true → ∃ t, exec i s = .next t ∧ t.runState ≠ .faulted ∧ t.fault = s.fault ∧
      t.pc = s.pc + BitVec.ofNat 9 (encode i).length) ∧
    (i.wf = false → ∃ k : Byte, 8 ≤ k.toNat ∧ k ∈ (encode i).tail ∧
      exec i s = .next { s with runState := .faulted, fault := some (.invalidRegisterIndex k) })

/-- Rule R11: no register is treated differently from another, register 7 included. All reset to 0, and renaming the
eight registers in an instruction and in the state renames its result, and changes nothing else. -/
def Obligations.RegistersAreInterchangeable : Prop :=
  (∀ k : Fin 8, State.reset.regs[k.val] = 0#8) ∧
  ∀ (r : Fin 8 → Fin 8), Function.Injective r → ∀ (i : Instr) (s s' t : State),
    (∀ k : Fin 8, s'.regs[(r k).val] = s.regs[k.val]) →
    s'.pc = s.pc → s'.mem = s.mem → s'.runState = s.runState → s'.fault = s.fault →
    exec i s = .next t →
    ∃ t', exec (renameInstr r i) s' = .next t' ∧
      (∀ k : Fin 8, t'.regs[(r k).val] = t.regs[k.val]) ∧
      t'.pc = t.pc ∧ t'.mem = t.mem ∧ t'.runState = t.runState ∧ t'.fault = t.fault ∧
      ∃ ev, t.trace = s.trace ++ ev ∧ t'.trace = s'.trace ++ ev.map (renameEvent r)

/-! ### The ALU and the accessors -/

/-- Rule R100: the ALU reads the destination, then the source, then writes the destination; it changes nothing but that
register; the first index out of range is the one reported, and then nothing is written. A selector outside ADD and
MUL is the model's `AluOp.other` (log entry 5). -/
def Obligations.AluContract : Prop :=
  ∀ (d s : Byte) (st : State),
    (∀ (hd : d.toNat < 8) (_hs : s.toNat < 8),
      aluApply .add d s st = .ok { st with
        regs := st.regs.set d.toNat (BitVec.ofNat 8 (st.regs[d.toNat].toNat + st.regs[s.toNat].toNat)) hd } ∧
      aluApply .mul d s st = .ok { st with
        regs := st.regs.set d.toNat (BitVec.ofNat 8 (st.regs[d.toNat].toNat * st.regs[s.toNat].toNat)) hd }) ∧
    (∀ op, op = .add ∨ op = .mul →
      (8 ≤ d.toNat → aluApply op d s st = .error (.invalidRegisterIndex d)) ∧
      (d.toNat < 8 → 8 ≤ s.toNat → aluApply op d s st = .error (.invalidRegisterIndex s))) ∧
    ∀ tag, aluApply (.other tag) d s st = .error (.unsupportedALUOperation (.other tag))

/-- Rule R101: ADD wraps modulo 256 and records nothing else, and no program reaches it: the registers after a step are
the ones before it, but for LDI, which writes its immediate, and MUL, which writes the product. -/
def Obligations.AluAddWraps : Prop :=
  (∀ (d s : Byte) (st : State) (hd : d.toNat < 8) (_hs : s.toNat < 8),
    aluApply .add d s st = .ok { st with
      regs := st.regs.set d.toNat (BitVec.ofNat 8 ((st.regs[d.toNat].toNat + st.regs[s.toNat].toNat) % 256)) hd }) ∧
  (∀ (d : Byte) (st : State) (hd : d.toNat < 8),
    aluApply .add d d st = .ok { st with
      regs := st.regs.set d.toNat (BitVec.ofNat 8 ((2 * st.regs[d.toNat].toNat) % 256)) hd }) ∧
  (∀ (s t : State) (o a b : Byte), FetchesAtPc s o a b → step s = .next t →
    (o = 0x82#8 → ∀ ha : a.toNat < 8, t.regs = s.regs.set a.toNat b ha) ∧
    (o = 0xA2#8 → ∀ (ha : a.toNat < 8) (_hb : b.toNat < 8),
      t.regs = s.regs.set a.toNat (BitVec.ofNat 8 ((s.regs[a.toNat].toNat * s.regs[b.toNat].toNat) % 256)) ha) ∧
    ((o = 0x82#8 → 8 ≤ a.toNat) → (o = 0xA2#8 → 8 ≤ a.toNat ∨ 8 ≤ b.toNat) → t.regs = s.regs)) ∧
  ∀ s t : State, s.runState ≠ .running ∨ 254 ≤ s.pc.toNat → step s = .next t → t.regs = s.regs

/-- Rule R102: MUL keeps the low 8 bits of the exact product; equal indices square the value read before the write;
swapping the operands computes the same number and writes it to the other register. -/
def Obligations.AluMulWraps : Prop :=
  ∀ (d s : Byte) (st : State) (hd : d.toNat < 8) (hs : s.toNat < 8), ∃ v : Byte,
    v.toNat = (st.regs[d.toNat].toNat * st.regs[s.toNat].toNat) % 256 ∧
    aluApply .mul d s st = .ok { st with regs := st.regs.set d.toNat v hd } ∧
    aluApply .mul s d st = .ok { st with regs := st.regs.set s.toNat v hs } ∧
    (d = s → v.toNat = (st.regs[d.toNat].toNat * st.regs[d.toNat].toNat) % 256)

/-- Rules R103, R123: a selector outside ADD and MUL (the model's `AluOp.other`, log entry 5) fails with the fatal
`UnsupportedALUOperation` and writes nothing, and no step ever raises it. -/
def Obligations.AluSelectorFaultIsUnreachable : Prop :=
  (∀ (tag len : Nat) (d s : Byte) (st : State),
    complete len st (aluApply (.other tag) d s st) =
      .next { st with runState := .faulted, fault := some (.unsupportedALUOperation (.other tag)) }) ∧
  ∀ (s t : State) (op : AluOp), step s = .next t → t.fault = some (.unsupportedALUOperation op) →
    s.fault = some (.unsupportedALUOperation op)

/-- Rule R12: the checked register read takes the whole byte as index and does not mask it. -/
def Obligations.RegReadContract : Prop :=
  ∀ (i : Byte) (s : State),
    (8 ≤ i.toNat → regRead i s = .error (.invalidRegisterIndex i)) ∧
    ∀ _h : i.toNat < 8, regRead i s = .ok s.regs[i.toNat]

/-- Rule R13: the checked register write stores the value modulo 256 in that register and nowhere else, and an index out
of range writes nothing. -/
def Obligations.RegWriteContract : Prop :=
  ∀ (i : Byte) (v : Nat) (s : State),
    (8 ≤ i.toNat → regWrite i v s = .error (.invalidRegisterIndex i)) ∧
    (i.toNat < 8 → ∃ t, regWrite i v s = .ok t ∧
      (∃ w : Byte, regRead i t = .ok w ∧ w.toNat = v % 256) ∧
      (∀ j : Byte, j ≠ i → regRead j t = regRead j s) ∧
      t = { s with regs := t.regs })

/-- Rules R32, R44: a read is the cell at the address, or the out-of-bounds fault with that address; there is no wrap
and no padding. -/
def Obligations.MemReadContract : Prop :=
  ∀ (addr : Nat) (s : State),
    (256 ≤ addr → memRead addr s = .error (.outOfBoundsAccess addr)) ∧
    (addr < 256 → memRead addr s = .ok (s.mem.peek addr))

/-- Rule R33: a write stores the byte in that cell and in no other and changes nothing else; at 256 or more it is the
out-of-bounds fault; no step writes memory. -/
def Obligations.MemWriteContract : Prop :=
  (∀ (addr : Nat) (v : Byte) (s : State), s.mem.wf = true →
    (256 ≤ addr → memWrite addr v s = .error (.outOfBoundsAccess addr)) ∧
    (addr < 256 → ∃ t, memWrite addr v s = .ok t ∧ memRead addr t = .ok v ∧
      (∀ k, k ≠ addr → memRead k t = memRead k s) ∧ t = { s with mem := t.mem })) ∧
  ∀ s t : State, step s = .next t → t.mem = s.mem

/-! ### Faults -/

/-- Rule R128: a step that faults does exactly what `raise` does: the run state and the latch, and nothing else; after it
no step changes anything. -/
def Obligations.FaultsArePrecise : Prop :=
  ∀ s t : State, s.runState = .running → step s = .next t → t.runState = .faulted →
    (∃ f, t = { s with runState := .faulted, fault := some f }) ∧ ∀ u, step t = .next u → u = t

/-- Rule R121: the memory accessors raise `OutOfBoundsAccess` exactly from 256 on, and in a running core whose pc is at
most 257 (rule R164) exactly four cases are left. -/
def Obligations.OutOfBoundsAccessExactly : Prop :=
  (∀ (addr : Nat) (v : Byte) (s : State),
    (memRead addr s = .error (.outOfBoundsAccess addr) ↔ 256 ≤ addr) ∧
    (memWrite addr v s = .error (.outOfBoundsAccess addr) ↔ 256 ≤ addr)) ∧
  ∀ (s : State) (addr : Nat), s.runState = .running → s.pc.toNat ≤ 257 →
    (step s = .next { s with runState := .faulted, fault := some (.outOfBoundsAccess addr) } ↔
      (s.pc.toNat = 256 ∧ addr = 256) ∨ (s.pc.toNat = 257 ∧ addr = 257) ∨
      (s.pc.toNat = 255 ∧ addr = 256) ∨ (s.pc.toNat = 254 ∧ addr = 256))

/-- Rule R122: `InvalidRegisterIndex(k)` is raised exactly by LDI, PRN and MUL with operand a of 8 or more, and by MUL
with a good operand a and operand b of 8 or more; k is that operand byte. -/
def Obligations.InvalidRegisterIndexExactly : Prop :=
  (∀ (i : Byte) (v : Nat) (s : State),
    (regRead i s = .error (.invalidRegisterIndex i) ↔ 8 ≤ i.toNat) ∧
    (regWrite i v s = .error (.invalidRegisterIndex i) ↔ 8 ≤ i.toNat)) ∧
  ∀ (s : State) (o a b k : Byte), FetchesAtPc s o a b →
    (step s = .next { s with runState := .faulted, fault := some (.invalidRegisterIndex k) } ↔
      (o = 0x82#8 ∧ 8 ≤ a.toNat ∧ k = a) ∨ (o = 0x47#8 ∧ 8 ≤ a.toNat ∧ k = a) ∨
      (o = 0xA2#8 ∧ 8 ≤ a.toNat ∧ k = a) ∨ (o = 0xA2#8 ∧ a.toNat < 8 ∧ 8 ≤ b.toNat ∧ k = b))

/-- Rule R126: the order in which a step's checks are made. An out-of-range fetch hides everything else; an unsupported
opcode's operands are never checked; operand a is checked before operand b; the ALU's selector fault is never
raised. -/
def Obligations.FaultPriority : Prop :=
  (∀ s : State, s.runState = .running →
    (256 ≤ s.pc.toNat →
      step s = .next { s with runState := .faulted, fault := some (.outOfBoundsAccess s.pc.toNat) }) ∧
    (s.pc.toNat = 255 →
      step s = .next { s with runState := .faulted, fault := some (.outOfBoundsAccess (s.pc.toNat + 1)) }) ∧
    (s.pc.toNat = 254 →
      step s = .next { s with runState := .faulted, fault := some (.outOfBoundsAccess (s.pc.toNat + 2)) })) ∧
  (∀ (s : State) (o a b : Byte), FetchesAtPc s o a b →
    (¬ Recognised o → ∃ t, step s = .next t ∧ t.runState = .running ∧ t.fault = s.fault) ∧
    (o = 0x82#8 ∨ o = 0x47#8 ∨ o = 0xA2#8 → 8 ≤ a.toNat →
      step s = .next { s with runState := .faulted, fault := some (.invalidRegisterIndex a) }) ∧
    (o = 0xA2#8 → a.toNat < 8 → 8 ≤ b.toNat →
      step s = .next { s with runState := .faulted, fault := some (.invalidRegisterIndex b) })) ∧
  ∀ (s t : State) (op : AluOp), step s = .next t → t.fault = some (.unsupportedALUOperation op) → s.fault = t.fault

/-- Rule R120: the codes of the three fault causes. -/
def Obligations.FaultCodes : Prop :=
  (∀ addr, (Fault.outOfBoundsAccess addr).code = 1) ∧ (∀ i, (Fault.invalidRegisterIndex i).code = 2) ∧
    ∀ op, (Fault.unsupportedALUOperation op).code = 3

/-- Rule R19: the latch is empty after reset, written only by a step that faults, cleared only by reset, and empty
exactly while the core is not `Faulted` in every reachable session. -/
def Obligations.FaultLatchRule : Prop :=
  State.reset.fault = none ∧
  (∀ s t : State, step s = .next t → t.fault = s.fault ∨ (s.runState = .running ∧ t.runState = .faulted)) ∧
  (∀ (c : Session) (op : HostOp), op ≠ .reset → (c.apply op).core.fault = c.core.fault) ∧
  ∀ c : Session, Reachable c → (c.core.fault = none ↔ c.core.runState ≠ .faulted)

/-- The latch is read by nothing inside the core (10_state.md section 1): with any other latch a running core takes the
same step, but for what stays latched. -/
def Obligations.LatchIsNeverRead : Prop :=
  ∀ (s t : State) (f : Option Fault), s.runState = .running → step s = .next t →
    step { s with fault := f } = .next { t with fault := if t.runState = .faulted then t.fault else f }

/-! ### The trace -/

/-- Rule R20: the trace is empty after reset and append-only; a step appends one `Print` (only PRN), or one `Diag` (only
an unsupported opcode), or nothing; the core never reads the trace; the output is the sub-list of `Print` events. -/
def Obligations.TraceRule : Prop :=
  State.reset.trace = [] ∧
  (∀ s t : State, step s = .next t → ∃ ev, t.trace = s.trace ++ ev ∧
    (ev = [] ∨
      (∃ (i : Byte) (_h : i.toNat < 8), s.mem.peek s.pc.toNat = 0x47#8 ∧ s.mem.peek (s.pc.toNat + 1) = i ∧
        ev = [.print i s.regs[i.toNat]]) ∨
      (s.pc.toNat ≤ 253 ∧ ¬ Recognised (s.mem.peek s.pc.toNat) ∧
        ev = [.diag s.pc (s.mem.peek s.pc.toNat)])) ∧
    ∀ tr : List Event, step { s with trace := tr } = .next { t with trace := tr ++ ev }) ∧
  ∀ (s : State) (i v : Byte) (p : PcWord) (o : Byte),
    (s.emit (.print i v)).output = s.output ++ [(i, v)] ∧ (s.emit (.diag p o)).output = s.output

/-! ### The life cycle -/

/-- Rules R22, R150: reset, from any state. -/
def Obligations.ResetValues : Prop :=
  ∀ s : State,
    (∀ (i : Nat) (_h : i < 8), (applyReset s).regs[i] = 0#8) ∧ (applyReset s).pc = 0#9 ∧
    (∀ addr, addr < 256 → memRead addr (applyReset s) = .ok 0#8) ∧ (applyReset s).runState = .idle ∧
    (applyReset s).fault = none ∧ (applyReset s).trace = [] ∧ applyReset s = State.reset

/-- A load of at most 256 bytes in `Idle` stores them from address 0 and leaves every other cell and everything but
memory; a longer image is refused whole (rule R152). That a core whose load was refused is not started, nor loaded again,
before the next reset is rules R125 and R153 and decisions D13 and D14, kept by `Session`, which is the model's choice
(log entry 4): the session stands still under every request but reset. -/
def Obligations.LoadStoresImage : Prop :=
  ∀ (img : List Byte) (s : State), s.mem.wf = true → s.runState = .idle →
    (img.length ≤ 256 → ∃ t, applyLoad img s = (.accepted, t) ∧ t = { s with mem := t.mem } ∧
      StandsAt t.mem 0 img ∧ ∀ k, img.length ≤ k → t.mem.peek k = s.mem.peek k) ∧
    (256 < img.length → applyLoad img s = (.refused, s) ∧ boot img = none ∧
      (Session.apply ⟨s, .fresh⟩ (.load img)).core = s ∧
      ∀ op, op ≠ .reset →
        Session.apply (Session.apply ⟨s, .fresh⟩ (.load img)) op = Session.apply ⟨s, .fresh⟩ (.load img))

/-- A load in any other state than `Idle` is ignored, and a load changes nothing but memory (rule R153). At most one load
for each reset (rule R153, decision D14) is kept by `Session`, which is the model's choice (log entry 4): the first load
of an `Idle` core is carried out and used up, accepted or refused, and after one load request no other changes anything
until the next reset, whatever steps and requests come between. -/
def Obligations.LoadOnlyWhileIdle : Prop :=
  (∀ (img : List Byte) (s : State), s.runState ≠ .idle → applyLoad img s = (.ignored, s)) ∧
  (∀ (img : List Byte) (s : State), (applyLoad img s).2 = { s with mem := (applyLoad img s).2.mem }) ∧
  (∀ (c : Session) (img : List Byte), c.core.runState = .idle → c.phase = .fresh →
    (c.apply (.load img)).core = (applyLoad img c.core).2 ∧ (c.apply (.load img)).phase ≠ .fresh) ∧
  ∀ (c c' : Session) (img img' : List Byte), WithoutReset (c.apply (.load img)) c' → c'.apply (.load img') = c'

/-- Rule R154: start leaves `Idle` for `Running` and changes nothing else; in any other state it is ignored. -/
def Obligations.StartOnlyFromIdle : Prop :=
  ∀ s : State,
    (s.runState = .idle → applyStart s = { s with runState := .running }) ∧
    (s.runState ≠ .idle → applyStart s = s)

/-- Rule R155: reset, load, start. A core booted with an image that fits stands at address 0, `Running`, with registers
zero, nothing latched or emitted, and the image in memory. -/
def Obligations.BootStandsAtZero : Prop :=
  ∀ img : List Byte, img.length ≤ 256 → ∃ t, boot img = some t ∧
    t = { State.reset with mem := t.mem, runState := .running } ∧
    StandsAt t.mem 0 img ∧ ∀ k, img.length ≤ k → t.mem.peek k = 0#8

/-- Rule R18: the four transitions of the run state and no other. A step leaves only `Running`: to `Halted` only by the
HLT byte at pc, to `Faulted` only by a fault; start leaves only `Idle`; a load changes no run state; reset goes to
`Idle`. -/
def Obligations.RunStateTransitions : Prop :=
  (∀ s t : State, step s = .next t →
    (s.runState ≠ .running → t = s) ∧
    (s.runState = .running →
      (t.runState = .running ∧ t.fault = s.fault) ∨
      (t.runState = .halted ∧ s.mem.peek s.pc.toNat = 0x01#8 ∧ s.pc.toNat ≤ 253) ∨
      (t.runState = .faulted ∧ t.fault ≠ none ∧ t.pc = s.pc))) ∧
  (∀ s : State, (applyReset s).runState = .idle) ∧
  (∀ s : State, s.runState = .idle → (applyStart s).runState = .running) ∧
  (∀ s : State, s.runState ≠ .idle → (applyStart s).runState = s.runState) ∧
  ∀ (img : List Byte) (s : State), (applyLoad img s).2.runState = s.runState

/-- Rule R151: reset works in every state and is the only way out of `Halted` and `Faulted`: no step and no other
request changes such a core. -/
def Obligations.OnlyResetLeavesTheEnd : Prop :=
  (∀ c : Session, c.apply .reset = Session.initial) ∧
  ∀ c : Session, RunOver c.core →
    (∀ (k : Nat) (t : State), Sys2Proof.core.run k c.core = .next t → t = c.core) ∧
    ∀ op, op ≠ .reset → (c.apply op).core = c.core

/-! ### Invariants and whole runs -/

/-- The invariant holds at reset (rule R22). -/
def Obligations.ResetMeetsInvariant : Prop :=
  CoreInv State.reset

/-- Every step keeps the invariant: canonical memory, pc at most 257 (R164), the latch (R19, R121 to R123), the place
after an executed HLT (R157), the trace's bound and its events (R20, R164). -/
def Obligations.StepKeepsInvariant : Prop :=
  ∀ s t : State, CoreInv s → step s = .next t → CoreInv t

/-- Every request of the host keeps the invariant (rules R150 to R154; the session's protocol is log entry 4). -/
def Obligations.HostKeepsInvariant : Prop :=
  ∀ (c : Session) (op : HostOp), CoreInv c.core → CoreInv (c.apply op).core

/-- Rule R164 and with it R19, R20, R121 to R123: the invariant holds in every session that host requests and steps
lead to from creation. The sessions follow the host's protocol as the model keeps it (log entry 4). -/
def Obligations.ReachableSessionsMeetInvariant : Prop :=
  ∀ c : Session, Reachable c → CoreInv c.core

/-- Rule R82: every run ends. A running core with pc at 0 is `Halted` after at most 254 steps or `Faulted` after at most
255, the last of which did not complete. -/
def Obligations.EveryRunEnds : Prop :=
  ∀ s : State, s.runState = .running → s.pc = 0#9 →
    ∃ (k : Nat) (t : State), Sys2Proof.core.run k s = .next t ∧
      ((t.runState = .halted ∧ k ≤ 254) ∨ (t.runState = .faulted ∧ k ≤ 255)) ∧
      ∀ (j : Nat) (u : State), j < k → Sys2Proof.core.run j s = .next u → u.runState = .running

/-- Rules R82, R156: with no HLT byte at or after pc among the addresses where an instruction executes, the run ends
`Faulted`. -/
def Obligations.RunWithoutHltFaults : Prop :=
  ∀ s : State, s.runState = .running →
    (∀ k, s.pc.toNat ≤ k → k ≤ 253 → s.mem.peek k ≠ 0x01#8) →
    ∃ (k : Nat) (t : State), Sys2Proof.core.run k s = .next t ∧ t.runState = .faulted ∧ k ≤ 255

/-- Rule R157: the end of a successful run of a booted image: pc stands one past an HLT that is in the image as loaded,
memory is as loaded and nothing is latched. -/
def Obligations.SuccessfulRunEndState : Prop :=
  ∀ (img : List Byte) (s t : State) (k : Nat), boot img = some s → Sys2Proof.core.run k s = .next t →
    RunSucceeded t →
    t.mem = s.mem ∧ t.fault = none ∧ 1 ≤ t.pc.toNat ∧ t.pc.toNat ≤ 254 ∧
      s.mem.peek (t.pc.toNat - 1) = 0x01#8

/-- Rules R50, R70, R161: bytes run as the instructions they encode. Where the encodings of a list of instructions stand
one after another from pc, with room for the fetches, and none but perhaps the last is HLT or has a bad register
operand, as many steps give exactly what executing the instructions in order gives. -/
def Obligations.EncodedInstructionsRunInOrder : Prop :=
  ∀ (is : List Instr) (i : Instr) (s : State),
    s.runState = .running → StandsAt s.mem s.pc.toNat ((is ++ [i]).flatMap encode) →
    s.pc.toNat + (is.flatMap encode).length ≤ 253 →
    (∀ j ∈ is, j ≠ .hlt ∧ j.wf = true) →
    Sys2Proof.core.run (is.length + 1) s = execInOrder (is ++ [i]) s
end

