-- ==== Sys2Proof/Laws/Decode.lean ====
section
/-! SUPPORT. What the dispatch table, the length and the decoder answer, without the table's search. -/

namespace Sys2Proof

theorem lookup_eq (o : Byte) :
    lookup o =
      if o = 0x01#8 then some .hlt
      else if o = 0x82#8 then some .ldi
      else if o = 0x47#8 then some .prn
      else if o = 0xA2#8 then some .mul
      else none := by
  simp only [lookup, dispatchTable, opHlt, opLdi, opPrn, opMul, List.find?_cons, List.find?_nil]
  repeat' split
  all_goals simp_all

@[simp] theorem opLength_opHlt : opLength opHlt = 1 := rfl
@[simp] theorem opLength_opPrn : opLength opPrn = 2 := rfl
@[simp] theorem opLength_opLdi : opLength opLdi = 3 := rfl
@[simp] theorem opLength_opMul : opLength opMul = 3 := rfl

/-- The length in the words of rule R51: the number of bits 7:6, plus one. -/
theorem opLength_eq (o : Byte) : opLength o = o.toNat / 64 + 1 := by
  revert o
  decide

theorem opLength_pos (o : Byte) : 1 ≤ opLength o := by
  rw [opLength_eq]
  omega

theorem opLength_le (o : Byte) : opLength o ≤ 4 := by
  have := o.isLt
  rw [opLength_eq]
  omega

/-- Everything the decoder can answer. -/
theorem decode_cases (w : Window) :
    (w.opcode = 0x01#8 ∧ decode w = .ok .hlt) ∨
      (w.opcode = 0x82#8 ∧ decode w = .ok (.ldi w.operandA w.operandB)) ∨
      (w.opcode = 0x47#8 ∧ decode w = .ok (.prn w.operandA)) ∨
      (w.opcode = 0xA2#8 ∧ decode w = .ok (.mul w.operandA w.operandB)) ∨
      (w.opcode ≠ 0x01#8 ∧ w.opcode ≠ 0x82#8 ∧ w.opcode ≠ 0x47#8 ∧ w.opcode ≠ 0xA2#8 ∧
        decode w = .error (.unsupportedOpcode w.opcode)) := by
  obtain ⟨o, a, b⟩ := w
  by_cases h1 : o = 0x01#8
  · exact .inl ⟨h1, by subst h1; rfl⟩
  by_cases h2 : o = 0x82#8
  · exact .inr (.inl ⟨h2, by subst h2; rfl⟩)
  by_cases h3 : o = 0x47#8
  · exact .inr (.inr (.inl ⟨h3, by subst h3; rfl⟩))
  by_cases h4 : o = 0xA2#8
  · exact .inr (.inr (.inr (.inl ⟨h4, by subst h4; rfl⟩)))
  exact .inr (.inr (.inr (.inr ⟨h1, h2, h3, h4, by
    simp only [decode, lookup_eq, if_neg h1, if_neg h2, if_neg h3, if_neg h4]⟩)))

theorem decode_hlt (a b : Byte) : decode ⟨0x01#8, a, b⟩ = .ok .hlt := rfl
theorem decode_ldi (a b : Byte) : decode ⟨0x82#8, a, b⟩ = .ok (.ldi a b) := rfl
theorem decode_prn (a b : Byte) : decode ⟨0x47#8, a, b⟩ = .ok (.prn a) := rfl
theorem decode_mul (a b : Byte) : decode ⟨0xA2#8, a, b⟩ = .ok (.mul a b) := rfl

end Sys2Proof
end

