-- ==== Sys2Proof/Laws/State.lean ====
section
/-! SUPPORT. One lemma for each field of State under each named update, all true by rfl. -/

namespace Sys2Proof.Machine

section setMem
variable (s : State) (m : Memory)
@[simp] theorem State.setMem_regs : (s.setMem m).regs = s.regs := rfl
@[simp] theorem State.setMem_pc : (s.setMem m).pc = s.pc := rfl
@[simp] theorem State.setMem_mem : (s.setMem m).mem = m := rfl
@[simp] theorem State.setMem_runState : (s.setMem m).runState = s.runState := rfl
@[simp] theorem State.setMem_fault : (s.setMem m).fault = s.fault := rfl
@[simp] theorem State.setMem_trace : (s.setMem m).trace = s.trace := rfl
end setMem

section setRunState
variable (s : State) (r : RunState)
@[simp] theorem State.setRunState_regs : (s.setRunState r).regs = s.regs := rfl
@[simp] theorem State.setRunState_pc : (s.setRunState r).pc = s.pc := rfl
@[simp] theorem State.setRunState_mem : (s.setRunState r).mem = s.mem := rfl
@[simp] theorem State.setRunState_runState : (s.setRunState r).runState = r := rfl
@[simp] theorem State.setRunState_fault : (s.setRunState r).fault = s.fault := rfl
@[simp] theorem State.setRunState_trace : (s.setRunState r).trace = s.trace := rfl
end setRunState

section advance
variable (s : State) (n : Nat)
@[simp] theorem State.advance_regs : (s.advance n).regs = s.regs := rfl
@[simp] theorem State.advance_pc : (s.advance n).pc = s.pc + BitVec.ofNat 9 n := rfl
@[simp] theorem State.advance_mem : (s.advance n).mem = s.mem := rfl
@[simp] theorem State.advance_runState : (s.advance n).runState = s.runState := rfl
@[simp] theorem State.advance_fault : (s.advance n).fault = s.fault := rfl
@[simp] theorem State.advance_trace : (s.advance n).trace = s.trace := rfl
end advance

section emit
variable (s : State) (e : Event)
@[simp] theorem State.emit_regs : (s.emit e).regs = s.regs := rfl
@[simp] theorem State.emit_pc : (s.emit e).pc = s.pc := rfl
@[simp] theorem State.emit_mem : (s.emit e).mem = s.mem := rfl
@[simp] theorem State.emit_runState : (s.emit e).runState = s.runState := rfl
@[simp] theorem State.emit_fault : (s.emit e).fault = s.fault := rfl
@[simp] theorem State.emit_trace : (s.emit e).trace = s.trace ++ [e] := rfl
end emit

section latchFault
variable (s : State) (f : Fault)
@[simp] theorem State.latchFault_regs : (s.latchFault f).regs = s.regs := rfl
@[simp] theorem State.latchFault_pc : (s.latchFault f).pc = s.pc := rfl
@[simp] theorem State.latchFault_mem : (s.latchFault f).mem = s.mem := rfl
@[simp] theorem State.latchFault_runState : (s.latchFault f).runState = .faulted := rfl
@[simp] theorem State.latchFault_fault : (s.latchFault f).fault = some f := rfl
@[simp] theorem State.latchFault_trace : (s.latchFault f).trace = s.trace := rfl
end latchFault

section setReg
variable (s : State) (i : Nat) (v : Byte) (h : i < 8)
@[simp] theorem State.setReg_regs : (s.setReg i v h).regs = s.regs.set i v h := rfl
@[simp] theorem State.setReg_pc : (s.setReg i v h).pc = s.pc := rfl
@[simp] theorem State.setReg_mem : (s.setReg i v h).mem = s.mem := rfl
@[simp] theorem State.setReg_runState : (s.setReg i v h).runState = s.runState := rfl
@[simp] theorem State.setReg_fault : (s.setReg i v h).fault = s.fault := rfl
@[simp] theorem State.setReg_trace : (s.setReg i v h).trace = s.trace := rfl
end setReg

end Sys2Proof.Machine
end

