-- ==== Sys2Proof/Laws/Memory.lean ====
section
/-! SUPPORT. The laws of memory: what a read gives after a write, that every operation keeps the canonical form, and that
a canonical memory is determined by what its cells read as. -/

namespace Sys2Proof.Machine

@[simp] theorem Memory.peek_nil (k : Nat) : Memory.peek [] k = 0#8 := rfl

theorem Memory.peek_cons (a : Nat) (v : Byte) (m : Memory) (k : Nat) :
    Memory.peek ((a, v) :: m) k = if a = k then v else Memory.peek m k := rfl

theorem Memory.wfFrom_cons (lo a : Nat) (v : Byte) (m : Memory) :
    Memory.wfFrom lo ((a, v) :: m) = true ↔
      lo ≤ a ∧ a < 256 ∧ v ≠ 0#8 ∧ Memory.wfFrom (a + 1) m = true := by
  simp only [Memory.wfFrom, Bool.and_eq_true, decide_eq_true_eq, and_assoc]
  exact Iff.rfl

theorem Memory.wfFrom_mono {lo lo' : Nat} (h : lo' ≤ lo) :
    ∀ {m : Memory}, Memory.wfFrom lo m = true → Memory.wfFrom lo' m = true
  | [], _ => rfl
  | (a, v) :: m, hm => by
    rw [Memory.wfFrom_cons] at hm ⊢
    exact ⟨by omega, hm.2⟩

/-- Below every listed address a canonical memory reads zero. -/
theorem Memory.peek_eq_zero_of_lt {lo k : Nat} (hk : k < lo) :
    ∀ {m : Memory}, Memory.wfFrom lo m = true → m.peek k = 0#8
  | [], _ => rfl
  | (a, v) :: m, hm => by
    rw [Memory.wfFrom_cons] at hm
    rw [Memory.peek_cons, if_neg (by omega)]
    exact Memory.peek_eq_zero_of_lt (lo := a + 1) (by omega) hm.2.2.2

theorem Memory.poke_wfFrom {k : Nat} (hk : k < 256) (v : Byte) :
    ∀ {lo : Nat} {m : Memory}, lo ≤ k → Memory.wfFrom lo m = true → Memory.wfFrom lo (m.poke k v) = true
  | lo, [], hlo, _ => by
    rw [Memory.poke]
    split
    · rfl
    · rename_i hv
      exact (Memory.wfFrom_cons ..).2 ⟨hlo, hk, hv, rfl⟩
  | lo, (a, b) :: m, hlo, hm => by
    have h := (Memory.wfFrom_cons ..).1 hm
    rw [Memory.poke]
    split
    · split
      · exact hm
      · rename_i hka hv
        exact (Memory.wfFrom_cons ..).2
          ⟨hlo, hk, hv, (Memory.wfFrom_cons ..).2 ⟨hka, h.2⟩⟩
    · split
      · rename_i hka
        split
        · exact Memory.wfFrom_mono (by omega) h.2.2.2
        · rename_i hv
          subst hka
          exact (Memory.wfFrom_cons ..).2 ⟨h.1, h.2.1, hv, h.2.2.2⟩
      · exact (Memory.wfFrom_cons ..).2
          ⟨h.1, h.2.1, h.2.2.1, Memory.poke_wfFrom hk v (by omega) h.2.2.2⟩

/-- A write inside the address space keeps the canonical form. -/
theorem Memory.poke_wf {m : Memory} (hm : m.wf = true) {k : Nat} (hk : k < 256) (v : Byte) :
    (m.poke k v).wf = true :=
  Memory.poke_wfFrom hk v (Nat.zero_le k) hm

theorem Memory.peek_pokeFrom (k : Nat) (v : Byte) (j : Nat) :
    ∀ {lo : Nat} {m : Memory}, Memory.wfFrom lo m = true →
      (m.poke k v).peek j = if j = k then v else m.peek j
  | _, [], _ => by
    rw [Memory.poke]
    split
    · rename_i hv
      simp [hv, Memory.unlisted]
    · simp [Memory.peek_cons, eq_comm]
  | lo, (a, b) :: m, hm => by
    have h := (Memory.wfFrom_cons ..).1 hm
    have hz : ∀ i, i ≤ a → Memory.peek m i = 0#8 := fun i hi =>
      Memory.peek_eq_zero_of_lt (lo := a + 1) (by omega) h.2.2.2
    have hu : Memory.unlisted = 0#8 := rfl
    rw [Memory.poke]
    by_cases hka : k < a
    · rw [if_pos hka]
      split
      · by_cases hj : j = k
        · subst hj
          rw [if_pos rfl, Memory.peek_cons, if_neg (by omega), hz j (by omega)]
          simp_all
        · rw [if_neg hj]
      · simp only [Memory.peek_cons, eq_comm (a := k)]
    · rw [if_neg hka]
      by_cases hke : k = a
      · rw [if_pos hke]
        subst hke
        split
        · by_cases hj : j = k
          · subst hj
            rw [if_pos rfl, hz j (by omega)]
            simp_all
          · rw [if_neg hj, Memory.peek_cons, if_neg (by omega)]
        · simp only [Memory.peek_cons, eq_comm (a := k)]
          split <;> rfl
      · rw [if_neg hke, Memory.peek_cons, Memory.peek_cons, Memory.peek_pokeFrom k v j h.2.2.2]
        by_cases haj : a = j
        · rw [if_pos haj, if_pos haj, if_neg (by omega)]
        · rw [if_neg haj, if_neg haj]

/-- Read after write: the cell written holds the byte, every other cell is as before. -/
theorem Memory.peek_poke {m : Memory} (hm : m.wf = true) (k : Nat) (v : Byte) (j : Nat) :
    (m.poke k v).peek j = if j = k then v else m.peek j :=
  Memory.peek_pokeFrom k v j hm

/-- Two canonical memories with the same cells are the same data. -/
theorem Memory.eq_of_peekFrom :
    ∀ {lo lo' : Nat} {m m' : Memory}, Memory.wfFrom lo m = true → Memory.wfFrom lo' m' = true →
      (∀ k, m.peek k = m'.peek k) → m = m'
  | _, _, [], [], _, _, _ => rfl
  | _, _, [], (a, v) :: m', _, h', he => by
    have hv := ((Memory.wfFrom_cons ..).1 h').2.2.1
    have ha := he a
    rw [Memory.peek_cons, if_pos rfl] at ha
    exact absurd ha.symm hv
  | _, _, (a, v) :: m, [], h, _, he => by
    have hv := ((Memory.wfFrom_cons ..).1 h).2.2.1
    have ha := he a
    rw [Memory.peek_cons, if_pos rfl] at ha
    exact absurd ha hv
  | _, _, (a, v) :: m, (a', v') :: m', h, h', he => by
    have h1 := (Memory.wfFrom_cons ..).1 h
    have h2 := (Memory.wfFrom_cons ..).1 h'
    have below : ∀ {b w : Nat} {x : Byte} {n : Memory}, Memory.wfFrom (b + 1) n = true → w < b →
        Memory.peek ((b, x) :: n) w = 0#8 := by
      intro b w x n hn hw
      rw [Memory.peek_cons, if_neg (by omega)]
      exact Memory.peek_eq_zero_of_lt (lo := b + 1) (by omega) hn
    have haa : a = a' := by
      rcases Nat.lt_trichotomy a a' with hlt | heq | hlt
      · have := he a
        rw [below h2.2.2.2 hlt, Memory.peek_cons, if_pos rfl] at this
        exact absurd this h1.2.2.1
      · exact heq
      · have := he a'
        rw [below h1.2.2.2 hlt, Memory.peek_cons, if_pos rfl] at this
        exact absurd this.symm h2.2.2.1
    subst haa
    have hvv : v = v' := by
      have := he a
      simpa [Memory.peek_cons] using this
    have hmm : m = m' := by
      refine Memory.eq_of_peekFrom h1.2.2.2 h2.2.2.2 fun k => ?_
      by_cases hk : k = a
      · rw [Memory.peek_eq_zero_of_lt (lo := a + 1) (by omega) h1.2.2.2,
          Memory.peek_eq_zero_of_lt (lo := a + 1) (by omega) h2.2.2.2]
      · have := he k
        rwa [Memory.peek_cons, Memory.peek_cons, if_neg (by omega), if_neg (by omega)] at this
    rw [hvv, hmm]

theorem memRead_of_lt {addr : Nat} (h : addr < 256) (s : State) : memRead addr s = .ok (s.mem.peek addr) := by
  rw [memRead, if_neg (by simp [h])]

theorem memRead_of_ge {addr : Nat} (h : 256 ≤ addr) (s : State) :
    memRead addr s = .error (.outOfBoundsAccess addr) := by
  rw [memRead, if_pos h]

theorem memWrite_of_lt {addr : Nat} (h : addr < 256) (v : Byte) (s : State) :
    memWrite addr v s = .ok (s.setMem (s.mem.poke addr v)) := by
  rw [memWrite, if_neg (by simp [h])]

theorem memWrite_of_ge {addr : Nat} (h : 256 ≤ addr) (v : Byte) (s : State) :
    memWrite addr v s = .error (.outOfBoundsAccess addr) := by
  rw [memWrite, if_pos h]

/-- Everything a checked write can do. -/
theorem memWrite_cases (addr : Nat) (v : Byte) (s : State) :
    (addr < 256 ∧ memWrite addr v s = .ok (s.setMem (s.mem.poke addr v))) ∨
      (256 ≤ addr ∧ memWrite addr v s = .error (.outOfBoundsAccess addr)) := by
  rcases Nat.lt_or_ge addr 256 with h | h
  · exact .inl ⟨h, memWrite_of_lt h v s⟩
  · exact .inr ⟨h, memWrite_of_ge h v s⟩

theorem memWrite_wf {addr : Nat} {v : Byte} {s t : State} (hs : s.mem.wf = true)
    (h : memWrite addr v s = .ok t) : t.mem.wf = true := by
  rcases memWrite_cases addr v s with ⟨ha, he⟩ | ⟨_, he⟩
  · rw [he] at h
    cases h
    exact Memory.poke_wf hs ha v
  · rw [he] at h
    cases h

theorem placeWindow_wf {s : State} (hs : s.mem.wf = true) (w : Window) : (placeWindow s w).mem.wf = true := by
  have one : ∀ {m : Memory}, m.wf = true → ∀ (k : Nat) (v : Byte),
      (if k < Config.memSize then m.poke k v else m).wf = true := by
    intro m hm k v
    split
    · exact Memory.poke_wf hm ‹_› v
    · exact hm
  simp only [placeWindow, State.setMem_mem, List.foldl_cons, List.foldl_nil]
  exact one (one (one hs _ _) _ _) _ _

theorem State.reset_mem_wf : State.reset.mem.wf = true := rfl

end Sys2Proof.Machine
end

