-- ==== Sys2Proof/Laws/Lifecycle.lean ====
section
/-! SUPPORT. What storing an image does to memory, and that the host's operations keep the canonical form. -/

namespace Sys2Proof.Machine

/-- An image that fits is stored: only memory changes, its canonical form stays, the image's cells hold its bytes and
every other cell is as before. -/
theorem storeImage_of_fits :
    ∀ (img : List Byte) (k : Nat) (s : State), s.mem.wf = true → k + img.length ≤ 256 →
      ∃ m, storeImage k img s = .ok (s.setMem m) ∧ m.wf = true ∧
        (∀ (j : Nat) (h : j < img.length), m.peek (k + j) = img[j]) ∧
        (∀ j, j < k ∨ k + img.length ≤ j → m.peek j = s.mem.peek j)
  | [], _, s, hs, _ => ⟨s.mem, rfl, hs, fun _ h => absurd h (Nat.not_lt_zero _), fun _ _ => rfl⟩
  | v :: rest, k, s, hs, hk => by
    have hk' : k + 1 + rest.length ≤ 256 := by
      simp only [List.length_cons] at hk
      omega
    have hw : (s.mem.poke k v).wf = true := Memory.poke_wf hs (by omega) v
    obtain ⟨m, hm, hwf, hin, hout⟩ :=
      storeImage_of_fits rest (k + 1) (s.setMem (s.mem.poke k v)) hw hk'
    refine ⟨m, ?_, hwf, ?_, ?_⟩
    · simp only [storeImage, memWrite_of_lt (show k < 256 by omega)]
      exact hm
    · intro j h
      cases j with
      | zero =>
        rw [hout _ (.inl (by omega)), State.setMem_mem, Memory.peek_poke hs]
        simp
      | succ j =>
        have := hin j (by simpa using h)
        rw [show k + (j + 1) = k + 1 + j by omega, this]
        rfl
    · intro j hj
      simp only [List.length_cons] at hj
      rw [hout j (by omega), State.setMem_mem, Memory.peek_poke hs, if_neg (by omega)]

/-- Storing an image changes nothing but memory, whatever the state. -/
theorem storeImage_frame :
    ∀ {img : List Byte} {k : Nat} {s t : State}, storeImage k img s = .ok t → t = s.setMem t.mem
  | [], _, _, _, h => by
    cases h
    rfl
  | v :: rest, k, s, t, h => by
    rcases memWrite_cases k v s with ⟨_, he⟩ | ⟨_, he⟩
    · simp only [storeImage, he] at h
      exact (storeImage_frame h).trans rfl
    · simp only [storeImage, he] at h
      cases h

/-- A load request to an `Idle` core is accepted or refused, never ignored. -/
theorem applyLoad_reply_of_idle {s : State} (h : s.runState = .idle) (img : List Byte) :
    (applyLoad img s).1 ≠ .ignored := by
  rw [applyLoad, if_neg (not_not.2 h)]
  split
  · simp
  · split <;> simp

theorem applyLoad_of_not_idle {s : State} (h : s.runState ≠ .idle) (img : List Byte) :
    applyLoad img s = (.ignored, s) := by
  rw [applyLoad, if_pos h]

/-- Everything a load request can do. -/
theorem applyLoad_cases (img : List Byte) (s : State) (hs : s.mem.wf = true) :
    (s.runState ≠ .idle ∧ applyLoad img s = (.ignored, s)) ∨
      (s.runState = .idle ∧ 256 < img.length ∧ applyLoad img s = (.refused, s)) ∨
      (s.runState = .idle ∧ img.length ≤ 256 ∧
        ∃ m, applyLoad img s = (.accepted, s.setMem m) ∧ m.wf = true ∧
          (∀ (j : Nat) (h : j < img.length), m.peek j = img[j]) ∧
          (∀ j, img.length ≤ j → m.peek j = s.mem.peek j)) := by
  by_cases hi : s.runState = .idle
  case neg => exact .inl ⟨hi, applyLoad_of_not_idle hi img⟩
  refine .inr ?_
  rcases Nat.lt_or_ge 256 img.length with hl | hl
  · exact .inl ⟨hi, hl, by rw [applyLoad, if_neg (not_not.2 hi), if_pos hl]⟩
  · obtain ⟨m, hm, hwf, hin, hout⟩ := storeImage_of_fits img 0 s hs (by omega)
    refine .inr ⟨hi, hl, m, ?_, hwf, fun j h => ?_, fun j h => hout j (.inr (by omega))⟩
    · rw [applyLoad, if_neg (not_not.2 hi), if_neg (Nat.not_lt.2 hl), hm]
    · simpa using hin j h

theorem applyStart_of_not_idle {s : State} (h : s.runState ≠ .idle) : applyStart s = s := by
  unfold applyStart
  cases hr : s.runState <;> simp_all

/-- Start does nothing to memory. -/
@[simp] theorem applyStart_mem (s : State) : (applyStart s).mem = s.mem := by
  unfold applyStart
  split <;> rfl

theorem Session.apply_mem_wf {c : Session} (h : c.core.mem.wf = true) (op : HostOp) :
    (c.apply op).core.mem.wf = true := by
  cases op with
  | reset => rfl
  | start =>
    cases hp : c.phase <;> simp [Session.apply, hp, h]
  | load img =>
    cases hp : c.phase with
    | loaded => simpa [Session.apply, hp] using h
    | refused => simpa [Session.apply, hp] using h
    | fresh =>
      rcases applyLoad_cases img c.core h with ⟨_, he⟩ | ⟨_, _, he⟩ | ⟨_, _, m, he, hwf, _⟩
      · simpa [Session.apply, hp, he] using h
      · simpa [Session.apply, hp, he] using h
      · simpa [Session.apply, hp, he] using hwf

end Sys2Proof.Machine
end

