-- ==== Sys2Proof/Laws/Operands.lean ====
section
/-! SUPPORT. What the register accessors and the ALU answer: one lemma for each outcome, cited in place of unfolding. -/

namespace Sys2Proof.Machine

theorem wrap8_toNat (n : Nat) : (wrap8 n).toNat = n % 256 := by
  simp [wrap8]

/-- A byte's own number reduces to the byte. -/
@[simp] theorem wrap8_immediate (b : Byte) : wrap8 (immediate b) = b := by
  simp [wrap8, immediate]

theorem wrap8_add (p q : Byte) : wrap8 (p.toNat + q.toNat) = p + q := by
  simp [wrap8, BitVec.ofNat_add]

theorem wrap8_mul (p q : Byte) : wrap8 (p.toNat * q.toNat) = p * q := by
  simp [wrap8, BitVec.ofNat_mul]

theorem regRead_of_lt {i : Byte} (h : i.toNat < 8) (s : State) : regRead i s = .ok (s.regs[i.toNat]) := by
  rw [regRead, dif_pos h]

theorem regRead_of_ge {i : Byte} (h : 8 ≤ i.toNat) (s : State) :
    regRead i s = .error (.invalidRegisterIndex i) := by
  rw [regRead, dif_neg (by simp [h])]

theorem regWrite_of_lt {i : Byte} (h : i.toNat < 8) (v : Nat) (s : State) :
    regWrite i v s = .ok (s.setReg i.toNat (wrap8 v) h) := by
  rw [regWrite, dif_pos h]

theorem regWrite_of_ge {i : Byte} (h : 8 ≤ i.toNat) (v : Nat) (s : State) :
    regWrite i v s = .error (.invalidRegisterIndex i) := by
  rw [regWrite, dif_neg (by simp [h])]

theorem aluBinary_of_lt (f : Nat → Nat → Nat) {d s : Byte} (hd : d.toNat < 8) (hs : s.toNat < 8) (st : State) :
    aluBinary f d s st =
      .ok (st.setReg d.toNat (wrap8 (f (st.regs[d.toNat]).toNat (st.regs[s.toNat]).toNat)) hd) := by
  simp only [aluBinary, regRead_of_lt hd, regRead_of_lt hs, regWrite_of_lt hd]

theorem aluBinary_dest_ge (f : Nat → Nat → Nat) {d : Byte} (hd : 8 ≤ d.toNat) (s : Byte) (st : State) :
    aluBinary f d s st = .error (.invalidRegisterIndex d) := by
  simp only [aluBinary, regRead_of_ge hd]

theorem aluBinary_src_ge (f : Nat → Nat → Nat) {d s : Byte} (hd : d.toNat < 8) (hs : 8 ≤ s.toNat) (st : State) :
    aluBinary f d s st = .error (.invalidRegisterIndex s) := by
  simp only [aluBinary, regRead_of_lt hd, regRead_of_ge hs]

/-- How a step ends after its handler: pc advances, or the fault is latched. -/
theorem complete_ok (len : Nat) (s t : State) : complete len s (.ok t) = .next (t.advance len) := rfl

theorem complete_error (len : Nat) (s : State) (f : Fault) : complete len s (.error f) = .next (s.latchFault f) := rfl

end Sys2Proof.Machine
end

