-- ==== Sys2Proof/Laws/PerInstr.lean ====
section
/-! SUPPORT. Families of statements about the instructions as syntax, one lemma for each constructor. -/

namespace Sys2Proof.Laws.EncodedLength

/-- An instruction's encoding has as many bytes as its opcode byte gives by the length formula (rules R50, R51). -/
def Statement (i : Instr) : Prop :=
  (encode i).length = opLength i.opcode

theorem hlt : Statement .hlt := by
  simp [Statement, encode, Instr.opcode]

theorem ldi (a b : Byte) : Statement (.ldi a b) := by
  simp [Statement, encode, Instr.opcode]

theorem prn (a : Byte) : Statement (.prn a) := by
  simp [Statement, encode, Instr.opcode]

theorem mul (a b : Byte) : Statement (.mul a b) := by
  simp [Statement, encode, Instr.opcode]

end Sys2Proof.Laws.EncodedLength
end

