-- ==== Sys2Proof/Laws/Step.lean ====
section
/-! SUPPORT. What a fetch answers, and the inversion lemma of a step: the cases everything about a step is derived from. -/

namespace Sys2Proof.Machine

/-- Everything a fetch can answer, by where pc stands. -/
theorem fetch_cases (s : State) :
    (s.pc.toNat ≤ 253 ∧
        fetch s = .ok ⟨s.mem.peek s.pc.toNat, s.mem.peek (s.pc.toNat + 1), s.mem.peek (s.pc.toNat + 2)⟩) ∨
      (s.pc.toNat = 254 ∧ fetch s = .error (.outOfBoundsAccess 256)) ∨
      (s.pc.toNat = 255 ∧ fetch s = .error (.outOfBoundsAccess 256)) ∨
      (256 ≤ s.pc.toNat ∧ fetch s = .error (.outOfBoundsAccess s.pc.toNat)) := by
  unfold fetch
  rcases Nat.lt_or_ge s.pc.toNat 254 with h | h
  · refine .inl ⟨by omega, ?_⟩
    simp only [memRead_of_lt (show s.pc.toNat < 256 by omega), memRead_of_lt (show s.pc.toNat + 1 < 256 by omega),
      memRead_of_lt (show s.pc.toNat + 2 < 256 by omega)]
  · rcases Nat.lt_or_ge s.pc.toNat 255 with h2 | h2
    · have e : s.pc.toNat = 254 := by omega
      refine .inr (.inl ⟨e, ?_⟩)
      rw [e, memRead_of_lt (by omega), memRead_of_lt (by omega), memRead_of_ge (by omega)]
    · rcases Nat.lt_or_ge s.pc.toNat 256 with h3 | h3
      · have e : s.pc.toNat = 255 := by omega
        refine .inr (.inr (.inl ⟨e, ?_⟩))
        rw [e, memRead_of_lt (by omega), memRead_of_ge (by omega)]
      · exact .inr (.inr (.inr ⟨h3, by rw [memRead_of_ge h3]⟩))

theorem step_of_not_running {s : State} (h : s.runState ≠ .running) : step s = .next s := by
  unfold step
  cases hr : s.runState <;> simp_all

theorem step_of_fetch_error {s : State} (h : s.runState = .running) {f : Fault} (hf : fetch s = .error f) :
    step s = .next (s.latchFault f) := by
  simp only [step, h, hf, raise]

theorem step_of_reject {s : State} (h : s.runState = .running) {w : Window} (hf : fetch s = .ok w) {o : Byte}
    (hd : decode w = .error (.unsupportedOpcode o)) :
    step s = .next ((s.emit (.diag s.pc o)).advance (opLength o)) := by
  simp only [step, h, hf, hd, skipUnsupported, complete_ok]

section arms
variable {a b : Byte} (s : State)

theorem execHlt_eq : execHlt s = .next ((s.setRunState .halted).advance 1) := rfl

theorem execLdi_of_lt (b : Byte) (h : a.toNat < 8) : execLdi a b s = .next ((s.setReg a.toNat b h).advance 3) := by
  simp only [execLdi, handleLdi, regWrite_of_lt h, complete_ok, wrap8_immediate, opLength_opLdi]

theorem execLdi_of_ge (b : Byte) (h : 8 ≤ a.toNat) :
    execLdi a b s = .next (s.latchFault (.invalidRegisterIndex a)) := by
  simp only [execLdi, handleLdi, regWrite_of_ge h, complete_error]

theorem execPrn_of_lt (h : a.toNat < 8) :
    execPrn a s = .next ((s.emit (.print a s.regs[a.toNat])).advance 2) := by
  simp only [execPrn, handlePrn, regRead_of_lt h, complete_ok, opLength_opPrn]

theorem execPrn_of_ge (h : 8 ≤ a.toNat) : execPrn a s = .next (s.latchFault (.invalidRegisterIndex a)) := by
  simp only [execPrn, handlePrn, regRead_of_ge h, complete_error]

theorem execMul_of_lt (ha : a.toNat < 8) (hb : b.toNat < 8) :
    execMul a b s = .next ((s.setReg a.toNat (s.regs[a.toNat] * s.regs[b.toNat]) ha).advance 3) := by
  simp only [execMul, handleMul, aluApply, aluBinary_of_lt _ ha hb, complete_ok, wrap8_mul, opLength_opMul]

theorem execMul_dest_ge (b : Byte) (ha : 8 ≤ a.toNat) :
    execMul a b s = .next (s.latchFault (.invalidRegisterIndex a)) := by
  simp only [execMul, handleMul, aluApply, aluBinary_dest_ge _ ha, complete_error]

theorem execMul_src_ge (ha : a.toNat < 8) (hb : 8 ≤ b.toNat) :
    execMul a b s = .next (s.latchFault (.invalidRegisterIndex b)) := by
  simp only [execMul, handleMul, aluApply, aluBinary_src_ge _ ha hb, complete_error]

end arms

/-- Every way a step can go. The bytes at pc stand for the fetched window. -/
inductive StepCase (s : State) : State → Prop where
  /-- Not `Running`: the same state. -/
  | idle (h : s.runState ≠ .running) : StepCase s s
  /-- A fetch past the end of memory: the first address out of range is 256, or pc itself past that. -/
  | fetchFault (h : s.runState = .running) (hpc : 254 ≤ s.pc.toNat) :
      StepCase s (s.latchFault (.outOfBoundsAccess (max s.pc.toNat 256)))
  | hlt (h : s.runState = .running) (hpc : s.pc.toNat ≤ 253) (ho : s.mem.peek s.pc.toNat = 0x01#8) :
      StepCase s ((s.setRunState .halted).advance 1)
  | ldi (h : s.runState = .running) (hpc : s.pc.toNat ≤ 253) (ho : s.mem.peek s.pc.toNat = 0x82#8)
      (ha : (s.mem.peek (s.pc.toNat + 1)).toNat < 8) :
      StepCase s ((s.setReg (s.mem.peek (s.pc.toNat + 1)).toNat (s.mem.peek (s.pc.toNat + 2)) ha).advance 3)
  | prn (h : s.runState = .running) (hpc : s.pc.toNat ≤ 253) (ho : s.mem.peek s.pc.toNat = 0x47#8)
      (ha : (s.mem.peek (s.pc.toNat + 1)).toNat < 8) :
      StepCase s
        ((s.emit (.print (s.mem.peek (s.pc.toNat + 1)) s.regs[(s.mem.peek (s.pc.toNat + 1)).toNat])).advance 2)
  | mul (h : s.runState = .running) (hpc : s.pc.toNat ≤ 253) (ho : s.mem.peek s.pc.toNat = 0xA2#8)
      (ha : (s.mem.peek (s.pc.toNat + 1)).toNat < 8) (hb : (s.mem.peek (s.pc.toNat + 2)).toNat < 8) :
      StepCase s
        ((s.setReg (s.mem.peek (s.pc.toNat + 1)).toNat
          (s.regs[(s.mem.peek (s.pc.toNat + 1)).toNat] * s.regs[(s.mem.peek (s.pc.toNat + 2)).toNat]) ha).advance 3)
  /-- A first register operand out of range: LDI, PRN or MUL. -/
  | operandAFault (h : s.runState = .running) (hpc : s.pc.toNat ≤ 253)
      (ho : s.mem.peek s.pc.toNat = 0x82#8 ∨ s.mem.peek s.pc.toNat = 0x47#8 ∨ s.mem.peek s.pc.toNat = 0xA2#8)
      (ha : 8 ≤ (s.mem.peek (s.pc.toNat + 1)).toNat) :
      StepCase s (s.latchFault (.invalidRegisterIndex (s.mem.peek (s.pc.toNat + 1))))
  /-- MUL's second register operand out of range. -/
  | operandBFault (h : s.runState = .running) (hpc : s.pc.toNat ≤ 253) (ho : s.mem.peek s.pc.toNat = 0xA2#8)
      (ha : (s.mem.peek (s.pc.toNat + 1)).toNat < 8) (hb : 8 ≤ (s.mem.peek (s.pc.toNat + 2)).toNat) :
      StepCase s (s.latchFault (.invalidRegisterIndex (s.mem.peek (s.pc.toNat + 2))))
  | skip (h : s.runState = .running) (hpc : s.pc.toNat ≤ 253) (h1 : s.mem.peek s.pc.toNat ≠ 0x01#8)
      (h2 : s.mem.peek s.pc.toNat ≠ 0x82#8) (h3 : s.mem.peek s.pc.toNat ≠ 0x47#8)
      (h4 : s.mem.peek s.pc.toNat ≠ 0xA2#8) :
      StepCase s
        ((s.emit (.diag s.pc (s.mem.peek s.pc.toNat))).advance (opLength (s.mem.peek s.pc.toNat)))

/-- A step answers a next state, and it is the one of exactly the case that applies. -/
theorem step_cases (s : State) : ∃ t, step s = .next t ∧ StepCase s t := by
  by_cases hr : s.runState = .running
  case neg => exact ⟨s, step_of_not_running hr, .idle hr⟩
  rcases fetch_cases s with ⟨hpc, hf⟩ | ⟨hpc, hf⟩ | ⟨hpc, hf⟩ | ⟨hpc, hf⟩
  · have run : ∀ i, decode ⟨s.mem.peek s.pc.toNat, s.mem.peek (s.pc.toNat + 1), s.mem.peek (s.pc.toNat + 2)⟩ = .ok i →
        step s = exec i s := by
      intro i hd
      simp only [step, hr, hf, hd]
    rcases decode_cases ⟨s.mem.peek s.pc.toNat, s.mem.peek (s.pc.toNat + 1), s.mem.peek (s.pc.toNat + 2)⟩ with
      ⟨ho, hd⟩ | ⟨ho, hd⟩ | ⟨ho, hd⟩ | ⟨ho, hd⟩ | ⟨h1, h2, h3, h4, hd⟩
    · exact ⟨_, run _ hd, .hlt hr hpc ho⟩
    · rcases Nat.lt_or_ge (s.mem.peek (s.pc.toNat + 1)).toNat 8 with ha | ha
      · exact ⟨_, (run _ hd).trans (execLdi_of_lt s _ ha), .ldi hr hpc ho ha⟩
      · exact ⟨_, (run _ hd).trans (execLdi_of_ge s _ ha), .operandAFault hr hpc (.inl ho) ha⟩
    · rcases Nat.lt_or_ge (s.mem.peek (s.pc.toNat + 1)).toNat 8 with ha | ha
      · exact ⟨_, (run _ hd).trans (execPrn_of_lt s ha), .prn hr hpc ho ha⟩
      · exact ⟨_, (run _ hd).trans (execPrn_of_ge s ha), .operandAFault hr hpc (.inr (.inl ho)) ha⟩
    · rcases Nat.lt_or_ge (s.mem.peek (s.pc.toNat + 1)).toNat 8 with ha | ha
      · rcases Nat.lt_or_ge (s.mem.peek (s.pc.toNat + 2)).toNat 8 with hb | hb
        · exact ⟨_, (run _ hd).trans (execMul_of_lt s ha hb), .mul hr hpc ho ha hb⟩
        · exact ⟨_, (run _ hd).trans (execMul_src_ge s ha hb), .operandBFault hr hpc ho ha hb⟩
      · exact ⟨_, (run _ hd).trans (execMul_dest_ge s _ ha), .operandAFault hr hpc (.inr (.inr ho)) ha⟩
    · exact ⟨_, step_of_reject hr hf hd, .skip hr hpc h1 h2 h3 h4⟩
  · refine ⟨_, step_of_fetch_error hr hf, ?_⟩
    simpa [hpc] using StepCase.fetchFault hr (show 254 ≤ s.pc.toNat by omega)
  · refine ⟨_, step_of_fetch_error hr hf, ?_⟩
    simpa [hpc] using StepCase.fetchFault hr (show 254 ≤ s.pc.toNat by omega)
  · refine ⟨_, step_of_fetch_error hr hf, ?_⟩
    simpa [Nat.max_eq_left hpc] using StepCase.fetchFault hr (show 254 ≤ s.pc.toNat by omega)

/-- The inversion lemma: if a step answers `t`, one of the named cases holds of it. -/
theorem step_inv {s t : State} (h : step s = .next t) : StepCase s t := by
  obtain ⟨t', h', hc⟩ := step_cases s
  rw [h'] at h
  cases h
  exact hc

/-- No step leads into `Idle`. -/
theorem step_not_idle {s t : State} (h : step s = .next t) (hs : s.runState ≠ .idle) : t.runState ≠ .idle := by
  cases step_inv h <;> simp_all

end Sys2Proof.Machine
end

