-- ==== Sys2Proof/Laws/Run.lean ====
section
/-! SUPPORT. Unrolling a run of the machine step by step. -/

namespace Sys2Proof.Machine

@[simp] theorem run_zero (s : State) : Sys2Proof.core.run 0 s = .next s := rfl

/-- A run of one more step goes on from the state its first step answers. -/
theorem run_succ {s t : State} (h : step s = .next t) (k : Nat) :
    Sys2Proof.core.run (k + 1) s = Sys2Proof.core.run k t := by
  have hs : Sys2Proof.core.step s = .next t := h
  simp only [Host.Core.run, hs]

end Sys2Proof.Machine
end

