-- ==== Sys2Proof/Tests/Slice0.lean ====
section
/-! SUPPORT. The model's own tests, expected values from spec/95_test_vectors.md and the encodings of rule R57, and for each
statement that has hypotheses a named witness that meets them (at the boundary of each clause). -/

namespace Sys2Proof.Tests

open Sys2Proof.Machine

/-- Memory with the bytes `bs` at ascending addresses from `k`, zero elsewhere. -/
def bytesAt : Nat → List Byte → Memory → Memory
  | _, [], m => m
  | k, b :: bs, m => bytesAt (k + 1) bs (m.poke k b)

/-- A running core at `pc` with the bytes `bs` there, registers `regs`, nothing latched or emitted. -/
def coreAt (pc : PcWord) (bs : List Byte) (regs : Vector Byte 8) : State where
  regs := regs
  pc := pc
  mem := bytesAt pc.toNat bs []
  runState := .running
  fault := none
  trace := []

/-- All registers zero. -/
def zeros : Vector Byte 8 := Vector.replicate 8 0#8

/-- The next state of an outcome. -/
def nextOf (o : Host.Outcome State Fault Refusal) : Option State :=
  match o with
  | .next t => some t
  | .fault _ => none
  | .refused _ => none

/-- What a step from `s` leaves in one component. -/
def view {α : Type} (f : State → α) (s : State) : Option α :=
  (nextOf (step s)).map f

/-! ### WellFormed: each check refuses an ill-formed term -/

theorem test_wf_ldi_index_8 : Instr.wf (.ldi 8#8 0#8) = false := by decide
theorem test_wf_ldi_index_7 : Instr.wf (.ldi 7#8 0xFF#8) = true := by decide
theorem test_wf_prn_index_0x80 : Instr.wf (.prn 0x80#8) = false := by decide
theorem test_wf_mul_dest_8 : Instr.wf (.mul 8#8 0#8) = false := by decide
theorem test_wf_mul_src_8 : Instr.wf (.mul 0#8 8#8) = false := by decide

/-! ### Decoding: words written out from rule R57; lengths from 95_test_vectors.md section 2.1 -/

theorem test_decode_hlt : decode ⟨0b00000001#8, 0xFF#8, 0xFF#8⟩ = .ok .hlt := by decide
theorem test_decode_ldi : decode ⟨0b10000010#8, 0b00000000#8, 0b00001000#8⟩ = .ok (.ldi 0#8 8#8) := by decide
theorem test_decode_prn : decode ⟨0b01000111#8, 0b00000000#8, 0b00000001#8⟩ = .ok (.prn 0#8) := by decide
theorem test_decode_mul : decode ⟨0b10100010#8, 0b00000010#8, 0b00000001#8⟩ = .ok (.mul 2#8 1#8) := by decide
theorem test_decode_index_not_masked : decode ⟨0b10000010#8, 0b00001000#8, 3#8⟩ = .ok (.ldi 8#8 3#8) := by decide
theorem test_decode_A0_is_not_add : decode ⟨0xA0#8, 2#8, 2#8⟩ = .error (.unsupportedOpcode 0xA0#8) := by decide
theorem test_lengths :
    [0x00#8, 0x01#8, 0x3F#8, 0x40#8, 0x47#8, 0x7F#8, 0x80#8, 0x82#8, 0xA0#8, 0xA2#8, 0xBF#8, 0xC0#8, 0xFF#8].map
      opLength = [1, 1, 1, 2, 2, 2, 3, 3, 3, 3, 3, 4, 4] := by decide
theorem test_unsupported_count :
    ((List.range 256).filter fun n => (lookup (BitVec.ofNat 8 n)).isNone).length = 252 := by decide +kernel

/-- The table's word of a row, bit 0 the least significant bit of the first byte: LDI r1, 0x7B is 0x7B0182. -/
theorem test_table_word_ldi : decodeTableWord 24 0x7B0182 = some (.ldi 1#8 0x7B#8) := by decide
theorem test_table_word_prn : decodeTableWord 16 0x0747 = some (.prn 7#8) := by decide
theorem test_table_word_mul : decodeTableWord 24 0x0102A2 = some (.mul 2#8 1#8) := by decide
theorem test_table_word_hlt : decodeTableWord 8 0x01 = some .hlt := by decide

/-- The first step after reset runs the instruction that withFetchWord places. -/
theorem test_fetch_word_runs :
    view (fun t => (t.runState, t.pc)) (State.reset.withFetchWord 8 0x01) = some (.halted, 1#9) ∧
    view (fun t => (t.regs[1], t.pc)) (State.reset.withFetchWord 24 0x7B0182) = some (0x7B#8, 3#9) := by decide

/-! ### One step of each instruction (95_test_vectors.md sections 2.2 to 2.6) -/

theorem test_ldi_last_place :
    view (fun t => (t.regs, t.pc, t.runState)) (coreAt 253 [0x82, 1, 0x7B] zeros) =
      some (zeros.set 1 123#8, 256#9, .running) := by decide
theorem test_ldi_index_not_masked :
    view id (coreAt 0 [0x82, 8, 3] zeros) =
      some { coreAt 0 [0x82, 8, 3] zeros with
        runState := .faulted, fault := some (.invalidRegisterIndex 8#8) } := by decide
theorem test_prn_prints :
    view (fun t => (t.trace, t.pc, t.regs)) (coreAt 3 [0x47, 0, 1] (zeros.set 0 8)) =
      some ([.print 0#8 8#8], 5#9, zeros.set 0 8) := by decide
theorem test_prn_ignored_operand_still_fetched :
    view (fun t => (t.fault, t.trace, t.pc)) (coreAt 254 [0x47, 0] zeros) =
      some (some (.outOfBoundsAccess 256), [], 254#9) := by decide
theorem test_mul_wraps_into_operand_a :
    view (fun t => (t.regs, t.pc)) (coreAt 6 [0xA2, 0, 1] ((zeros.set 0 200).set 1 200)) =
      some ((zeros.set 0 64).set 1 200, 9#9) := by decide
theorem test_mul_checks_operand_a_first :
    view (fun t => (t.fault, t.pc)) (coreAt 0 [0xA2, 9, 10] zeros) =
      some (some (.invalidRegisterIndex 9#8), 0#9) := by decide
theorem test_hlt_advances :
    view (fun t => (t.runState, t.pc, t.trace)) (coreAt 253 [0x01, 0, 0] zeros) = some (.halted, 254#9, []) := by decide
theorem test_hlt_at_254_does_not_execute :
    view (fun t => (t.runState, t.fault, t.pc)) (coreAt 254 [0x01, 0] zeros) =
      some (.faulted, some (.outOfBoundsAccess 256), 254#9) := by decide
theorem test_unsupported_skips_four :
    view (fun t => (t.trace, t.pc, t.runState)) (coreAt 253 [0xC0, 0, 0] zeros) =
      some ([.diag 253#9 0xC0#8], 257#9, .running) := by decide
theorem test_opcode_fetch_fault_names_pc :
    view (fun t => (t.fault, t.pc)) (coreAt 257 [] zeros) = some (some (.outOfBoundsAccess 257), 257#9) := by decide

/-! ### The ALU (section 2.4) and the life cycle (section 2.7) -/

theorem test_alu_add_wraps :
    (aluApply .add 0#8 1#8 (coreAt 0 [] ((zeros.set 0 250).set 1 10))).toOption.map State.regs =
      some ((zeros.set 0 4).set 1 10) := by decide
theorem test_alu_mul_squares :
    (aluApply .mul 3#8 3#8 (coreAt 0 [] (zeros.set 3 16))).toOption.map State.regs = some zeros := by decide
theorem test_load_then_start :
    (boot [0x82, 0, 8, 0x47, 0, 1]).map (fun s => (s.mem.peek 0, s.mem.peek 5, s.mem.peek 6, s.pc, s.runState)) =
      some (0x82#8, 1#8, 0#8, 0#9, .running) := by decide
theorem test_load_only_once :
    ((Session.initial.apply (.load [1])).apply (.load [2, 3])).core.mem = [(0, 1#8)] := by decide

/-! ### Memory's canonical form -/

theorem test_poke_zero_removes : Memory.poke [(3, 7#8), (5, 9#8)] 3 0#8 = [(5, 9#8)] := by decide
theorem test_wf_rejects : Memory.wf [(5, 1#8), (3, 1#8)] = false ∧ Memory.wf [(3, 0#8)] = false ∧
    Memory.wf [(256, 1#8)] = false := by decide

/-! ### Witnesses: the hypotheses of each statement can be met -/

/-- A core at 253 that runs what stands there, the last place where anything executes. -/
abbrev lastPlace (o a b : Byte) : State := coreAt 253 [o, a, b] zeros

theorem witness_DispatchTableIsExact : ¬ Recognised 0x00#8 ∧ ¬ Recognised 0xA0#8 ∧ ¬ Recognised 0xFF#8 := by decide

theorem witness_LengthIsBitsSevenSixPlusOne : decode ⟨0x82#8, 1#8, 2#8⟩ = .ok (.ldi 1#8 2#8) := by decide

theorem witness_HighOpcodesSkipFourBytes :
    FetchesAtPc (lastPlace 0xC0 1 1) 0xC0#8 1#8 1#8 ∧ FetchesAtPc (coreAt 0 [0xFF, 1, 1, 1] zeros) 0xFF#8 1#8 1#8 ∧
    (∀ k, k ≤ 2 → Memory.peek (bytesAt 0 [0xFF, 1, 1, 9] []) (0 + k) =
      (coreAt 0 [0xFF, 1, 1, 1] zeros).mem.peek (0 + k)) := by decide

theorem witness_EncodeOfDecodedWindow :
    decode ⟨0x47#8, 7#8, 2#8⟩ = .ok (.prn 7#8) ∧
    (Window.bytes ⟨0x47#8, 7#8, 9#8⟩).take (opLength 0x47#8) = encode (.prn 7#8) := by decide

theorem witness_StepRunsDecodedInstruction :
    FetchesAtPc (lastPlace 0xA2 7 8) 0xA2#8 7#8 8#8 ∧ decode ⟨0xA2#8, 7#8, 8#8⟩ = .ok (.mul 7#8 8#8) := by decide

theorem witness_ExecIsHandlerThenAdvance :
    (∃ t, handleMul 7#8 7#8 (lastPlace 0xA2 7 7) = .ok t) ∧ (∃ f, handleMul 7#8 8#8 (lastPlace 0xA2 7 8) = .error f) ∧
    (∃ t, handleLdi 7#8 8#8 (lastPlace 0x82 7 8) = .ok t) ∧ (∃ f, handlePrn 8#8 (lastPlace 0x47 8 0) = .error f) :=
  ⟨⟨_, rfl⟩, ⟨_, rfl⟩, ⟨_, rfl⟩, ⟨_, rfl⟩⟩

theorem witness_StepFollowsPerStepAlgorithm : (lastPlace 0x01 0 0).runState = .running := by decide

theorem witness_UnsupportedOpcodeIsSkipped :
    FetchesAtPc (lastPlace 0xA0 2 2) 0xA0#8 2#8 2#8 ∧ ¬ Recognised 0xA0#8 ∧
    (coreAt 254 [0xA0] zeros).runState = .running ∧ (coreAt 254 [0xA0] zeros).pc.toNat = 254 ∧
    (coreAt 255 [0xA0] zeros).runState = .running ∧ (coreAt 255 [0xA0] zeros).pc.toNat = 255 := by decide

theorem witness_PcAdvancesByDecodedLength :
    view State.runState (lastPlace 0xC0 0 0) = some .running ∧
    view State.runState (lastPlace 0x01 0 0) = some .halted ∧
    view State.runState (lastPlace 0x82 8 0) = some .faulted := by decide

theorem witness_NothingHappensUnlessRunning :
    State.reset.runState = .idle ∧ ((lastPlace 0 0 0).setRunState .halted).runState = .halted ∧
    ((lastPlace 0 0 0).setRunState .faulted).runState = .faulted := by decide

theorem witness_RunsKeepMemory : ∃ t, Sys2Proof.core.run 1 (lastPlace 0x82 7 9) = .next t := ⟨_, rfl⟩

theorem witness_StepReadsOnlyThreeCells :
    (∃ t, step (coreAt 0 [0x47, 7, 2, 5] zeros) = .next t) ∧
    (∀ k, k ≤ 2 → Memory.peek (bytesAt 0 [0x47, 7, 2, 6] []) (0 + k) =
      (coreAt 0 [0x47, 7, 2, 5] zeros).mem.peek (0 + k)) := ⟨⟨_, rfl⟩, by decide⟩

theorem witness_EndOfMemoryHazard :
    FetchesAtPc (lastPlace 0x01 9 9) 0x01#8 9#8 9#8 ∧ FetchesAtPc (lastPlace 0x82 7 8) 0x82#8 7#8 8#8 ∧
    FetchesAtPc (lastPlace 0xA2 7 7) 0xA2#8 7#8 7#8 ∧ (lastPlace 0xA2 7 7).pc.toNat = 253 ∧
    FetchesAtPc (lastPlace 0x47 7 8) 0x47#8 7#8 8#8 ∧ FetchesAtPc (lastPlace 0x00 9 9) 0x00#8 9#8 9#8 ∧
    FetchesAtPc (lastPlace 0xFF 9 9) 0xFF#8 9#8 9#8 ∧ ¬ Recognised 0x00#8 ∧ ¬ Recognised 0xFF#8 ∧
    FetchesAtPc (lastPlace 0x82 8 8) 0x82#8 8#8 8#8 ∧ FetchesAtPc (lastPlace 0xA2 7 8) 0xA2#8 7#8 8#8 ∧
    (coreAt 254 [1] zeros).pc.toNat = 254 ∧ (coreAt 255 [1] zeros).pc.toNat = 255 := by decide

theorem witness_LdiLoadsImmediate :
    (7#8).toNat < 8 ∧ 8 ≤ (8#8).toNat ∧ FetchesAtPc (lastPlace 0x82 7 255) 0x82#8 7#8 255#8 ∧
    (coreAt 254 [0x82, 0] zeros).runState = .running ∧ (coreAt 254 [0x82, 0] zeros).pc.toNat = 254 := by decide

theorem witness_PrnPrintsRegister :
    (7#8).toNat < 8 ∧ 8 ≤ (8#8).toNat ∧ FetchesAtPc (lastPlace 0x47 7 255) 0x47#8 7#8 255#8 ∧
    (coreAt 255 [0x47] zeros).runState = .running ∧ (coreAt 255 [0x47] zeros).pc.toNat = 255 := by decide

theorem witness_MulMultipliesRegisters :
    (7#8).toNat < 8 ∧ 8 ≤ (8#8).toNat ∧ FetchesAtPc (lastPlace 0xA2 7 7) 0xA2#8 7#8 7#8 ∧
    (coreAt 254 [0xA2, 0] zeros).runState = .running ∧ (coreAt 254 [0xA2, 0] zeros).pc.toNat = 254 := by decide

theorem witness_HltHaltsForGood :
    FetchesAtPc (lastPlace 0x01 255 255) 0x01#8 255#8 255#8 ∧
    (coreAt 254 [0x01] zeros).runState = .running ∧ (coreAt 254 [0x01] zeros).pc.toNat = 254 ∧
    ((lastPlace 0 0 0).setRunState .halted).runState = .halted ∧ HostOp.start ≠ .reset ∧
    step ((lastPlace 0 0 0).setRunState .halted) = .next ((lastPlace 0 0 0).setRunState .halted) :=
  ⟨by decide, by decide, by decide, by decide, by decide, rfl⟩

theorem witness_RegisterWritersFrame :
    (∃ t, exec (.ldi 7#8 8#8) (lastPlace 0x82 7 8) = .next t) ∧
    (∃ t, exec (.ldi 8#8 1#8) (lastPlace 0x82 8 1) = .next t) ∧
    (∃ t, exec (.mul 7#8 7#8) (lastPlace 0xA2 7 7) = .next t) ∧
    (∃ t, exec (.mul 7#8 8#8) (lastPlace 0xA2 7 8) = .next t) := ⟨⟨_, rfl⟩, ⟨_, rfl⟩, ⟨_, rfl⟩, ⟨_, rfl⟩⟩

theorem witness_PrnAndHltFrame :
    (∃ t, exec (.prn 7#8) (lastPlace 0x47 7 1) = .next t) ∧
    (∃ t, exec (.prn 8#8) (lastPlace 0x47 8 1) = .next t) ∧
    (∃ t, exec .hlt (lastPlace 1 0 0) = .next t) := ⟨⟨_, rfl⟩, ⟨_, rfl⟩, ⟨_, rfl⟩⟩

theorem witness_WellFormedInstructionsComplete :
    (lastPlace 0 0 0).runState = .running ∧ Instr.wf (.mul 7#8 7#8) = true ∧ Instr.wf (.mul 7#8 8#8) = false := by
  decide

theorem witness_RegistersAreInterchangeable :
    Function.Injective (fun k : Fin 8 => Fin.rev k) ∧
    (∀ k : Fin 8, (zeros.set 7 5)[(Fin.rev k).val] = (zeros.set 0 5)[k.val]) ∧
    ∃ t, exec (.prn 0#8) (coreAt 0 [0x47, 0] (zeros.set 0 5)) = .next t := ⟨Fin.rev_injective, by decide, ⟨_, rfl⟩⟩

theorem witness_AluContract :
    (7#8).toNat < 8 ∧ (0#8).toNat < 8 ∧ 8 ≤ (8#8).toNat ∧ 8 ≤ (255#8).toNat := by decide

theorem witness_AluAddWraps :
    (7#8).toNat < 8 ∧ 8 ≤ (8#8).toNat ∧
    (FetchesAtPc (lastPlace 0x82 7 255) 0x82#8 7#8 255#8 ∧ ∃ t, step (lastPlace 0x82 7 255) = .next t) ∧
    (FetchesAtPc (lastPlace 0xA2 7 7) 0xA2#8 7#8 7#8 ∧ ∃ t, step (lastPlace 0xA2 7 7) = .next t) ∧
    (FetchesAtPc (lastPlace 0xA2 7 8) 0xA2#8 7#8 8#8 ∧ ∃ t, step (lastPlace 0xA2 7 8) = .next t) ∧
    (FetchesAtPc (lastPlace 0xA0 7 7) 0xA0#8 7#8 7#8 ∧ ∃ t, step (lastPlace 0xA0 7 7) = .next t) ∧
    (254 ≤ (coreAt 254 [0xA0, 0] zeros).pc.toNat ∧ ∃ t, step (coreAt 254 [0xA0, 0] zeros) = .next t) ∧
    (State.reset.runState ≠ .running ∧ ∃ t, step State.reset = .next t) :=
  ⟨by decide, by decide, ⟨by decide, _, rfl⟩, ⟨by decide, _, rfl⟩, ⟨by decide, _, rfl⟩, ⟨by decide, _, rfl⟩,
    ⟨by decide, _, rfl⟩, ⟨by decide, _, rfl⟩⟩

theorem witness_AluMulWraps : (7#8).toNat < 8 ∧ (0#8).toNat < 8 := by decide

/-- A core that is stopped with the ALU's fault latched, which no run reaches, meets the second clause. -/
theorem witness_AluSelectorFaultIsUnreachable :
    step ((lastPlace 0 0 0).latchFault (.unsupportedALUOperation (.other 0))) =
      .next ((lastPlace 0 0 0).latchFault (.unsupportedALUOperation (.other 0))) := rfl

theorem witness_RegReadContract : 8 ≤ (8#8).toNat ∧ (7#8).toNat < 8 := by decide

theorem witness_RegWriteContract : 8 ≤ (8#8).toNat ∧ (7#8).toNat < 8 ∧ (6#8 : Byte) ≠ 7#8 := by decide

theorem witness_MemReadContract : 256 ≤ 256 ∧ 255 < 256 := by decide

theorem witness_MemWriteContract :
    (lastPlace 1 2 3).mem.wf = true ∧ (255 : Nat) < 256 ∧ (256 : Nat) ≤ 256 ∧ (254 : Nat) ≠ 255 := by decide

theorem witness_FaultsArePrecise :
    view State.runState (lastPlace 0xA2 7 8) = some .faulted ∧
    view State.runState (coreAt 255 [1] zeros) = some .faulted := by decide

theorem witness_OutOfBoundsAccessExactly :
    (coreAt 254 [] zeros).pc.toNat ≤ 257 ∧ (coreAt 257 [] zeros).pc.toNat ≤ 257 ∧
    (coreAt 257 [] zeros).runState = .running := by decide

theorem witness_InvalidRegisterIndexExactly :
    FetchesAtPc (lastPlace 0x82 8 0) 0x82#8 8#8 0#8 ∧ FetchesAtPc (lastPlace 0x47 8 0) 0x47#8 8#8 0#8 ∧
    FetchesAtPc (lastPlace 0xA2 8 9) 0xA2#8 8#8 9#8 ∧ FetchesAtPc (lastPlace 0xA2 7 8) 0xA2#8 7#8 8#8 := by decide

theorem witness_FaultPriority :
    (coreAt 256 [] zeros).pc.toNat = 256 ∧ (coreAt 255 [] zeros).pc.toNat = 255 ∧ (coreAt 254 [] zeros).pc.toNat = 254 ∧
    FetchesAtPc (lastPlace 0x48 9 0) 0x48#8 9#8 0#8 ∧ ¬ Recognised 0x48#8 ∧
    FetchesAtPc (lastPlace 0xA2 9 10) 0xA2#8 9#8 10#8 ∧ FetchesAtPc (lastPlace 0xA2 7 8) 0xA2#8 7#8 8#8 ∧
    FetchesAtPc (lastPlace 0x82 8 8) 0x82#8 8#8 8#8 ∧ FetchesAtPc (lastPlace 0x47 8 8) 0x47#8 8#8 8#8 := by decide

theorem witness_FaultLatchRule :
    (∃ t, step (lastPlace 0x82 8 0) = .next t) ∧ HostOp.load [1] ≠ .reset ∧ Reachable Session.initial :=
  ⟨⟨_, rfl⟩, by decide, .initial⟩

theorem witness_LatchIsNeverRead :
    (lastPlace 0x82 7 0).runState = .running ∧ ∃ t, step (lastPlace 0x82 7 0) = .next t := ⟨rfl, _, rfl⟩

theorem witness_TraceRule :
    (∃ t, step (lastPlace 0x47 7 0) = .next t) ∧ ∃ t, step (lastPlace 0xA0 7 0) = .next t := ⟨⟨_, rfl⟩, _, rfl⟩

theorem witness_ResetValues : (7 : Nat) < 8 ∧ (255 : Nat) < 256 := by decide

theorem witness_LoadStoresImage :
    State.reset.mem.wf = true ∧ State.reset.runState = .idle ∧ (List.replicate 256 1#8).length ≤ 256 ∧
    256 < (List.replicate 257 1#8).length ∧ HostOp.start ≠ .reset :=
  ⟨rfl, rfl, Nat.le_of_eq List.length_replicate, Nat.lt_of_lt_of_eq (by decide) List.length_replicate.symm, by decide⟩

theorem witness_LoadOnlyWhileIdle :
    (lastPlace 0 0 0).runState ≠ .idle ∧ Session.initial.core.runState = .idle ∧ Session.initial.phase = .fresh := by
  decide

/-- A start and a step stand between the first load and the second. -/
theorem witness_LoadOnlyWhileIdle_between : ∃ t,
    step ((Session.initial.apply (.load [1])).apply .start).core = .next t ∧
    WithoutReset (Session.initial.apply (.load [1])) ⟨t, .loaded⟩ :=
  ⟨_, rfl, .step _ _ (.host _ .start .refl (by decide)) rfl⟩

theorem witness_StartOnlyFromIdle : State.reset.runState = .idle ∧ (lastPlace 0 0 0).runState ≠ .idle := by decide

theorem witness_BootStandsAtZero : (List.replicate 256 1#8).length ≤ 256 := Nat.le_of_eq List.length_replicate

theorem witness_RunStateTransitions :
    (∃ t, step (lastPlace 0x01 0 0) = .next t) ∧ (∃ t, step State.reset = .next t) ∧
    State.reset.runState = .idle ∧ (lastPlace 0 0 0).runState ≠ .idle :=
  ⟨⟨_, rfl⟩, ⟨_, rfl⟩, by decide, by decide⟩

theorem witness_OnlyResetLeavesTheEnd :
    RunOver ((lastPlace 0 0 0).setRunState .halted) ∧
    RunOver ((lastPlace 0 0 0).latchFault (.invalidRegisterIndex 8#8)) ∧ HostOp.start ≠ .reset ∧
    Sys2Proof.core.run 2 ((lastPlace 0 0 0).setRunState .halted) = .next ((lastPlace 0 0 0).setRunState .halted) :=
  ⟨by decide, by decide, by decide, rfl⟩

/-- A running core that meets the invariant: the one before MUL at 253. -/
theorem inv_lastPlace_mul : CoreInv (lastPlace 0xA2 7 7) where
  memCanonical := by decide
  pcBound := by decide
  latchIffFaulted := by decide
  latchFits := by intro f hf; cases hf
  idleFresh := by intro h; cases h
  haltedAfterHlt := by intro h; cases h
  traceBound := by decide
  traceFits := by intro e he; cases he

theorem witness_StepKeepsInvariant :
    CoreInv (lastPlace 0xA2 7 7) ∧ ∃ t, step (lastPlace 0xA2 7 7) = .next t := ⟨inv_lastPlace_mul, _, rfl⟩

theorem witness_HostKeepsInvariant : CoreInv (Session.mk (lastPlace 0xA2 7 7) .loaded).core := inv_lastPlace_mul

theorem witness_ReachableSessionsMeetInvariant :
    Reachable ((Session.initial.apply (.load [0x47, 7])).apply .start) := .host _ _ (.host _ _ .initial)

theorem witness_EveryRunEnds : (coreAt 0 [0x01] zeros).runState = .running ∧ (coreAt 0 [0x01] zeros).pc = 0#9 := by decide

theorem witness_RunWithoutHltFaults :
    (coreAt 250 [0x82, 7, 9] zeros).runState = .running ∧
    ∀ k, (coreAt 250 [0x82, 7, 9] zeros).pc.toNat ≤ k → k ≤ 253 → (coreAt 250 [0x82, 7, 9] zeros).mem.peek k ≠ 0x01#8 := by
  refine ⟨by decide, fun k h1 h2 => ?_⟩
  have : (coreAt 250 [0x82, 7, 9] zeros).pc.toNat = 250 := by decide
  obtain rfl | rfl | rfl | rfl : k = 250 ∨ k = 251 ∨ k = 252 ∨ k = 253 := by omega
  all_goals decide

theorem witness_SuccessfulRunEndState :
    (boot [0x01]).bind (fun s => (nextOf (Sys2Proof.core.run 1 s)).map State.runState) = some .halted := by decide

theorem witness_EncodedInstructionsRunInOrder :
    (coreAt 248 [0x82, 7, 5, 0x47, 7, 0x01] zeros).runState = .running ∧
    StandsAt (coreAt 248 [0x82, 7, 5, 0x47, 7, 0x01] zeros).mem
      (coreAt 248 [0x82, 7, 5, 0x47, 7, 0x01] zeros).pc.toNat
      (([.ldi 7#8 5#8, .prn 7#8] ++ [.hlt] : List Instr).flatMap encode) ∧
    (coreAt 248 [0x82, 7, 5, 0x47, 7, 0x01] zeros).pc.toNat +
      (([.ldi 7#8 5#8, .prn 7#8] : List Instr).flatMap encode).length ≤ 253 ∧
    (∀ j ∈ ([.ldi 7#8 5#8, .prn 7#8] : List Instr), j ≠ .hlt ∧ j.wf = true) := by
  unfold StandsAt
  decide

end Sys2Proof.Tests
end

/-! ## Proofs about the state (10_state.md): general registers, run state, fault latch, trace -/

namespace Sys2Proof.Machine

/-! ### The checked register accessors -/

/-- A register reads back what was written to it (rule R13). -/
theorem regRead_setReg_same {i : Byte} (h : i.toNat < 8) (v : Byte) (s : State) :
    regRead i (s.setReg i.toNat v h) = .ok v := by
  rw [regRead_of_lt h, State.setReg_regs, Vector.getElem_set_self]

/-- A write to one register leaves what every other index reads, in range or not (rule R13). -/
theorem regRead_setReg_of_ne {i j : Byte} (hne : j ≠ i) (h : i.toNat < 8) (v : Byte) (s : State) :
    regRead j (s.setReg i.toNat v h) = regRead j s := by
  rcases Nat.lt_or_ge j.toNat 8 with hj | hj
  · have hij : i.toNat ≠ j.toNat := fun e => hne (BitVec.eq_of_toNat_eq e.symm)
    rw [regRead_of_lt hj, regRead_of_lt hj, State.setReg_regs, Vector.getElem_set_ne _ _ hij]
  · rw [regRead_of_ge hj, regRead_of_ge hj]

/-- Settles O28: one case of the read for each side of the bound. -/
theorem regReadContract : Obligations.RegReadContract :=
  fun _ s => ⟨fun h => regRead_of_ge h s, fun h => regRead_of_lt h s⟩

/-- Settles O29 by the two read-after-write lemmas. -/
theorem regWriteContract : Obligations.RegWriteContract := by
  intro i v s
  refine ⟨fun h => regWrite_of_ge h v s, fun h => ⟨_, regWrite_of_lt h v s, ?_, ?_, rfl⟩⟩
  · exact ⟨_, regRead_setReg_same h _ s, wrap8_toNat v⟩
  · exact fun j hj => regRead_setReg_of_ne hj h _ s

/-! ### What a step does to the run state and the latch -/

/-- The transitions a step can make, with what each does to the latch (rules R18, R19). -/
theorem StepCase.transitions {s t : State} (h : StepCase s t) :
    (s.runState ≠ .running ∧ t = s) ∨
      (s.runState = .running ∧ t.runState = .running ∧ t.fault = s.fault) ∨
      (s.runState = .running ∧ t.runState = .halted ∧ t.fault = s.fault ∧
        s.mem.peek s.pc.toNat = 0x01#8 ∧ s.pc.toNat ≤ 253) ∨
      (s.runState = .running ∧ t.runState = .faulted ∧ t.fault ≠ none ∧ t.pc = s.pc) := by
  have latched (hr : s.runState = .running) (f : Fault) :
      s.runState = .running ∧ (s.latchFault f).runState = .faulted ∧ (s.latchFault f).fault ≠ none ∧
        (s.latchFault f).pc = s.pc :=
    ⟨hr, rfl, Option.some_ne_none f, rfl⟩
  cases h with
  | idle hr => exact .inl ⟨hr, rfl⟩
  | fetchFault hr => exact .inr (.inr (.inr (latched hr _)))
  | hlt hr hpc ho => exact .inr (.inr (.inl ⟨hr, rfl, rfl, ho, hpc⟩))
  | ldi hr => exact .inr (.inl ⟨hr, hr, rfl⟩)
  | prn hr => exact .inr (.inl ⟨hr, hr, rfl⟩)
  | mul hr => exact .inr (.inl ⟨hr, hr, rfl⟩)
  | operandAFault hr => exact .inr (.inr (.inr (latched hr _)))
  | operandBFault hr => exact .inr (.inr (.inr (latched hr _)))
  | skip hr => exact .inr (.inl ⟨hr, hr, rfl⟩)

/-! ### What the host's requests do to the core -/

/-- Storing an image changes nothing but memory, wherever it begins and whatever memory held. -/
theorem storeImage_eq_setMem :
    ∀ (img : List Byte) {k : Nat} {s t : State}, storeImage k img s = .ok t → ∃ m, t = s.setMem m
  | [], _, s, _, h => ⟨s.mem, by cases h; rfl⟩
  | v :: rest, k, s, t, h => by
    rw [storeImage] at h
    rcases memWrite_cases k v s with ⟨_, hw⟩ | ⟨_, hw⟩ <;> rw [hw] at h
    · obtain ⟨m, hm⟩ := storeImage_eq_setMem rest h
      exact ⟨m, hm⟩
    · cases h

/-- A load request changes nothing but memory, in every state. -/
theorem applyLoad_eq_setMem (img : List Byte) (s : State) : ∃ m, (applyLoad img s).2 = s.setMem m := by
  unfold applyLoad
  split
  · exact ⟨s.mem, rfl⟩
  split
  · exact ⟨s.mem, rfl⟩
  split
  next t ht => exact storeImage_eq_setMem img ht
  next => exact ⟨s.mem, rfl⟩

@[simp] theorem applyLoad_runState (img : List Byte) (s : State) : (applyLoad img s).2.runState = s.runState := by
  obtain ⟨m, hm⟩ := applyLoad_eq_setMem img s
  rw [hm, State.setMem_runState]

@[simp] theorem applyLoad_fault (img : List Byte) (s : State) : (applyLoad img s).2.fault = s.fault := by
  obtain ⟨m, hm⟩ := applyLoad_eq_setMem img s
  rw [hm, State.setMem_fault]

theorem applyStart_of_idle {s : State} (h : s.runState = .idle) : applyStart s = s.setRunState .running := by
  rw [applyStart, h]

@[simp] theorem applyStart_fault (s : State) : (applyStart s).fault = s.fault := by
  by_cases h : s.runState = .idle
  · rw [applyStart_of_idle h, State.setRunState_fault]
  · rw [applyStart_of_not_idle h]

/-- Everything a host request can do to the core of a session: nothing, or the operation it names. -/
theorem Session.apply_core_cases (c : Session) (op : HostOp) :
    (c.apply op).core = c.core ∨
      (op = .reset ∧ (c.apply op).core = State.reset) ∨
      (∃ img, op = .load img ∧ (c.apply op).core = (applyLoad img c.core).2) ∨
      (op = .start ∧ (c.apply op).core = applyStart c.core) := by
  cases op with
  | reset => exact .inr (.inl ⟨rfl, rfl⟩)
  | load img =>
    cases hp : c.phase with
    | fresh =>
      refine .inr (.inr (.inl ⟨img, rfl, ?_⟩))
      simp only [Session.apply, hp]
      split
      all_goals next he => rw [he]
    | loaded => exact .inl (by simp only [Session.apply, hp])
    | refused => exact .inl (by simp only [Session.apply, hp])
  | start =>
    cases hp : c.phase with
    | fresh => exact .inr (.inr (.inr ⟨rfl, by simp only [Session.apply, hp]⟩))
    | loaded => exact .inr (.inr (.inr ⟨rfl, by simp only [Session.apply, hp]⟩))
    | refused => exact .inl (by simp only [Session.apply, hp])

/-- What holds of the core after reset and is kept by every load, start and step holds of the core of every reachable
session. -/
theorem Reachable.core_induction {P : State → Prop} (reset : P State.reset)
    (load : ∀ img s, P s → P (applyLoad img s).2) (start : ∀ s, P s → P (applyStart s))
    (step : ∀ s t, P s → StepCase s t → P t) {c : Session} (h : Reachable c) : P c.core := by
  induction h with
  | initial => exact reset
  | host c op _ ih =>
    rcases c.apply_core_cases op with he | ⟨_, he⟩ | ⟨img, _, he⟩ | ⟨_, he⟩ <;> rw [he]
    · exact ih
    · exact reset
    · exact load img _ ih
    · exact start _ ih
  | step c t _ hs ih => exact step _ _ ih (step_inv hs)

/-- Settles O45 by the transitions of a step and the frame of each host operation. -/
theorem runStateTransitions : Obligations.RunStateTransitions := by
  refine ⟨fun s t h => ?_, fun _ => rfl, fun s h => ?_, fun s h => ?_, applyLoad_runState⟩
  · rcases (step_inv h).transitions with
      ⟨hn, ht⟩ | ⟨hr, ht, hf⟩ | ⟨hr, ht, _, ho, hpc⟩ | ⟨hr, ht, hf, hpc⟩
    · exact ⟨fun _ => ht, fun hr => absurd hr hn⟩
    · exact ⟨fun hn => absurd hr hn, fun _ => .inl ⟨ht, hf⟩⟩
    · exact ⟨fun hn => absurd hr hn, fun _ => .inr (.inl ⟨ht, ho, hpc⟩)⟩
    · exact ⟨fun hn => absurd hr hn, fun _ => .inr (.inr ⟨ht, hf, hpc⟩)⟩
  · rw [applyStart_of_idle h, State.setRunState_runState]
  · rw [applyStart_of_not_idle h]

/-! ### The fault latch -/

/-- The latch is empty exactly while the core is not `Faulted` (rule R19). -/
def LatchAgrees (s : State) : Prop :=
  s.fault = none ↔ s.runState ≠ .faulted

theorem LatchAgrees.applyLoad (img : List Byte) (s : State) (h : LatchAgrees s) :
    LatchAgrees (applyLoad img s).2 := by
  rwa [LatchAgrees, applyLoad_fault, applyLoad_runState]

theorem LatchAgrees.applyStart (s : State) (h : LatchAgrees s) : LatchAgrees (applyStart s) := by
  by_cases hi : s.runState = .idle
  · have hf : s.fault = none := h.2 (by simp [hi])
    rw [applyStart_of_idle hi]
    simp [LatchAgrees, hf]
  · rwa [applyStart_of_not_idle hi]

theorem LatchAgrees.step (s t : State) (h : LatchAgrees s) (hc : StepCase s t) : LatchAgrees t := by
  have empty (hr : s.runState = .running) : s.fault = none := h.2 (by simp [hr])
  rcases hc.transitions with ⟨_, rfl⟩ | ⟨hr, ht, hf⟩ | ⟨hr, ht, hf, _⟩ | ⟨_, ht, hf, _⟩
  · exact h
  · simp [LatchAgrees, ht, hf, empty hr]
  · simp [LatchAgrees, ht, hf, empty hr]
  · simp [LatchAgrees, ht, hf]

/-- Settles O37: the last part is the invariant `LatchAgrees`, kept by every host request and step. -/
theorem faultLatchRule : Obligations.FaultLatchRule := by
  refine ⟨rfl, fun s t h => ?_, fun c op hop => ?_, fun c hc => ?_⟩
  · rcases (step_inv h).transitions with ⟨_, rfl⟩ | ⟨_, _, hf⟩ | ⟨_, _, hf, _⟩ | ⟨hr, ht, _⟩
    · exact .inl rfl
    · exact .inl hf
    · exact .inl hf
    · exact .inr ⟨hr, ht⟩
  · rcases c.apply_core_cases op with he | ⟨hr, _⟩ | ⟨img, _, he⟩ | ⟨_, he⟩
    · rw [he]
    · exact absurd hr hop
    · rw [he, applyLoad_fault]
    · rw [he, applyStart_fault]
  · have atReset : LatchAgrees State.reset := by simp [LatchAgrees, State.reset]
    exact hc.core_induction (P := LatchAgrees) atReset .applyLoad .applyStart .step

/-! ### The converse of the inversion lemma -/

theorem fetch_of_le {s : State} (hpc : s.pc.toNat ≤ 253) :
    fetch s =
      .ok ⟨s.mem.peek s.pc.toNat, s.mem.peek (s.pc.toNat + 1), s.mem.peek (s.pc.toNat + 2)⟩ := by
  rcases fetch_cases s with ⟨_, hf⟩ | ⟨h, _⟩ | ⟨h, _⟩ | ⟨h, _⟩
  · exact hf
  all_goals omega

theorem fetch_of_ge {s : State} (hpc : 254 ≤ s.pc.toNat) :
    fetch s = .error (.outOfBoundsAccess (max s.pc.toNat 256)) := by
  rcases fetch_cases s with ⟨h, _⟩ | ⟨h, hf⟩ | ⟨h, hf⟩ | ⟨h, hf⟩
  · omega
  · rw [hf, Nat.max_eq_right (by omega)]
  · rw [hf, Nat.max_eq_right (by omega)]
  · rw [hf, Nat.max_eq_left h]

/-- A step at which three bytes are fetched and decode to an instruction is that instruction's `exec` (rule R76). -/
theorem step_of_decode {s : State} (hr : s.runState = .running) (hpc : s.pc.toNat ≤ 253) {i : Instr}
    (hd : decode ⟨s.mem.peek s.pc.toNat, s.mem.peek (s.pc.toNat + 1), s.mem.peek (s.pc.toNat + 2)⟩ = .ok i) :
    step s = exec i s := by
  simp only [step, hr, fetch_of_le hpc, hd]

theorem not_recognised {o : Byte} (h1 : o ≠ 0x01#8) (h2 : o ≠ 0x82#8) (h3 : o ≠ 0x47#8) (h4 : o ≠ 0xA2#8) :
    ¬ Recognised o := by
  simp [Recognised, h1, h2, h3, h4]

section running
variable {s : State} (hr : s.runState = .running) (hpc : s.pc.toNat ≤ 253)
include hr hpc

theorem step_at_hlt (ho : s.mem.peek s.pc.toNat = 0x01#8) : step s = execHlt s :=
  step_of_decode hr hpc (i := .hlt) (by rw [ho, decode_hlt])

theorem step_at_ldi (ho : s.mem.peek s.pc.toNat = 0x82#8) :
    step s = execLdi (s.mem.peek (s.pc.toNat + 1)) (s.mem.peek (s.pc.toNat + 2)) s :=
  step_of_decode hr hpc (i := .ldi _ _) (by rw [ho, decode_ldi])

theorem step_at_prn (ho : s.mem.peek s.pc.toNat = 0x47#8) : step s = execPrn (s.mem.peek (s.pc.toNat + 1)) s :=
  step_of_decode hr hpc (i := .prn _) (by rw [ho, decode_prn])

theorem step_at_mul (ho : s.mem.peek s.pc.toNat = 0xA2#8) :
    step s = execMul (s.mem.peek (s.pc.toNat + 1)) (s.mem.peek (s.pc.toNat + 2)) s :=
  step_of_decode hr hpc (i := .mul _ _) (by rw [ho, decode_mul])

theorem step_at_unrecognised (ho : ¬ Recognised (s.mem.peek s.pc.toNat)) :
    step s = .next ((s.emit (.diag s.pc (s.mem.peek s.pc.toNat))).advance (opLength (s.mem.peek s.pc.toNat))) := by
  simp only [Recognised, not_or] at ho
  obtain ⟨h1, h2, h3, h4⟩ := ho
  refine step_of_reject hr (fetch_of_le hpc) ?_
  simp only [decode, lookup_eq, if_neg h1, if_neg h2, if_neg h3, if_neg h4]

end running

/-- The cases of a step exclude each other: the one that holds is what the step answers. -/
theorem StepCase.step_eq {s t : State} (h : StepCase s t) : step s = .next t := by
  cases h with
  | idle hr => exact step_of_not_running hr
  | fetchFault hr hpc => exact step_of_fetch_error hr (fetch_of_ge hpc)
  | hlt hr hpc ho => exact (step_at_hlt hr hpc ho).trans (execHlt_eq s)
  | ldi hr hpc ho ha => exact (step_at_ldi hr hpc ho).trans (execLdi_of_lt s _ ha)
  | prn hr hpc ho ha => exact (step_at_prn hr hpc ho).trans (execPrn_of_lt s ha)
  | mul hr hpc ho ha hb => exact (step_at_mul hr hpc ho).trans (execMul_of_lt s ha hb)
  | operandAFault hr hpc ho ha =>
    rcases ho with ho | ho | ho
    · exact (step_at_ldi hr hpc ho).trans (execLdi_of_ge s _ ha)
    · exact (step_at_prn hr hpc ho).trans (execPrn_of_ge s ha)
    · exact (step_at_mul hr hpc ho).trans (execMul_dest_ge s _ ha)
  | operandBFault hr hpc ho ha hb => exact (step_at_mul hr hpc ho).trans (execMul_src_ge s ha hb)
  | skip hr hpc h1 h2 h3 h4 => exact step_at_unrecognised hr hpc (not_recognised h1 h2 h3 h4)

/-! ### The trace -/

/-- The state with another trace. -/
def State.withTrace (s : State) (tr : List Event) : State :=
  { s with trace := tr }

/-- What one step from `s` can append to the trace: nothing, PRN's `Print`, or the `Diag` of an unsupported opcode
(rule R20). -/
def StepEmits (s : State) (ev : List Event) : Prop :=
  ev = [] ∨
    (∃ (i : Byte) (_h : i.toNat < 8), s.mem.peek s.pc.toNat = 0x47#8 ∧ s.mem.peek (s.pc.toNat + 1) = i ∧
      ev = [.print i s.regs[i.toNat]]) ∨
    (s.pc.toNat ≤ 253 ∧ ¬ Recognised (s.mem.peek s.pc.toNat) ∧ ev = [.diag s.pc (s.mem.peek s.pc.toNat)])

/-- A step appends to the trace and does not read it: with any other trace the same case applies, and appends the
same. -/
theorem StepCase.trace_append {s t : State} (h : StepCase s t) :
    ∃ ev, t.trace = s.trace ++ ev ∧ StepEmits s ev ∧
      ∀ tr, StepCase (s.withTrace tr) (t.withTrace (tr ++ ev)) := by
  have silent (ht : t.trace = s.trace) (hc : ∀ tr, StepCase (s.withTrace tr) (t.withTrace tr)) :
      ∃ ev, t.trace = s.trace ++ ev ∧ StepEmits s ev ∧
        ∀ tr, StepCase (s.withTrace tr) (t.withTrace (tr ++ ev)) :=
    ⟨[], by simpa using ht, .inl rfl, fun tr => by simpa using hc tr⟩
  cases h with
  | idle hr => exact silent rfl fun tr => .idle (s := s.withTrace tr) hr
  | fetchFault hr hpc => exact silent rfl fun tr => .fetchFault (s := s.withTrace tr) hr hpc
  | hlt hr hpc ho => exact silent rfl fun tr => .hlt (s := s.withTrace tr) hr hpc ho
  | ldi hr hpc ho ha => exact silent rfl fun tr => .ldi (s := s.withTrace tr) hr hpc ho ha
  | prn hr hpc ho ha =>
    exact ⟨_, rfl, .inr (.inl ⟨_, ha, ho, rfl, rfl⟩), fun tr => .prn (s := s.withTrace tr) hr hpc ho ha⟩
  | mul hr hpc ho ha hb => exact silent rfl fun tr => .mul (s := s.withTrace tr) hr hpc ho ha hb
  | operandAFault hr hpc ho ha => exact silent rfl fun tr => .operandAFault (s := s.withTrace tr) hr hpc ho ha
  | operandBFault hr hpc ho ha hb =>
    exact silent rfl fun tr => .operandBFault (s := s.withTrace tr) hr hpc ho ha hb
  | skip hr hpc h1 h2 h3 h4 =>
    exact ⟨_, rfl, .inr (.inr ⟨hpc, not_recognised h1 h2 h3 h4, rfl⟩), fun tr =>
      .skip (s := s.withTrace tr) hr hpc h1 h2 h3 h4⟩

theorem output_emit_print (s : State) (i v : Byte) : (s.emit (.print i v)).output = s.output ++ [(i, v)] := by
  simp only [State.output, State.emit_trace, List.filterMap_append, List.filterMap_cons, List.filterMap_nil]

theorem output_emit_diag (s : State) (p : PcWord) (o : Byte) : (s.emit (.diag p o)).output = s.output := by
  simp only [State.output, State.emit_trace, List.filterMap_append, List.filterMap_cons, List.filterMap_nil,
    List.append_nil]

/-- Settles O39 by what each case of a step appends. -/
theorem traceRule : Obligations.TraceRule := by
  refine ⟨rfl, fun s t h => ?_, fun s i v p o => ⟨output_emit_print s i v, output_emit_diag s p o⟩⟩
  obtain ⟨ev, happ, hev, hany⟩ := (step_inv h).trace_append
  exact ⟨ev, happ, hev, fun tr => (hany tr).step_eq⟩

/-! ### Renaming the registers (rule R11) -/

/-- `s'` is `s` with its registers renamed by `r`; the traces are not compared. -/
structure Renamed (r : Fin 8 → Fin 8) (s s' : State) : Prop where
  regs : ∀ k : Fin 8, s'.regs[(r k).val] = s.regs[k.val]
  pc : s'.pc = s.pc
  mem : s'.mem = s.mem
  runState : s'.runState = s.runState
  fault : s'.fault = s.fault

section RenamedRegisters
variable {r : Fin 8 → Fin 8} {s s' : State} {a b : Byte}

theorem renameIndex_toNat (h : a.toNat < 8) : (renameIndex r a).toNat = (r ⟨a.toNat, h⟩).val := by
  have := (r ⟨a.toNat, h⟩).isLt
  rw [renameIndex, dif_pos h, BitVec.toNat_ofNat]
  omega

theorem renameIndex_lt (h : a.toNat < 8) : (renameIndex r a).toNat < 8 := by
  rw [renameIndex_toNat h]
  exact Fin.isLt _

theorem renameIndex_of_ge (h : 8 ≤ a.toNat) : renameIndex r a = a := by
  rw [renameIndex, dif_neg (by omega)]

/-- The renamed register holds what the register held. -/
theorem Renamed.getElem (h : Renamed r s s') (ha : a.toNat < 8) :
    s'.regs[(renameIndex r a).toNat]'(renameIndex_lt ha) = s.regs[a.toNat] := by
  simp only [renameIndex_toNat ha]
  exact h.regs ⟨a.toNat, ha⟩

/-- Writing a register and writing the renamed one agree; that no other register is hit is `r`'s injectivity. -/
theorem Renamed.setReg (hinj : Function.Injective r) (h : Renamed r s s') (ha : a.toNat < 8) (v : Byte) :
    Renamed r (s.setReg a.toNat v ha) (s'.setReg (renameIndex r a).toNat v (renameIndex_lt ha)) := by
  refine ⟨fun k => ?_, h.pc, h.mem, h.runState, h.fault⟩
  have hiff : (r ⟨a.toNat, ha⟩).val = (r k).val ↔ a.toNat = k.val := by
    rw [Fin.val_inj, hinj.eq_iff, Fin.ext_iff]
  simp only [State.setReg_regs, renameIndex_toNat ha, Vector.getElem_set, hiff, h.regs k]

theorem Renamed.advance (h : Renamed r s s') (n : Nat) : Renamed r (s.advance n) (s'.advance n) :=
  ⟨h.regs, congrArg (· + BitVec.ofNat 9 n) h.pc, h.mem, h.runState, h.fault⟩

theorem Renamed.setRunState (h : Renamed r s s') (x : RunState) : Renamed r (s.setRunState x) (s'.setRunState x) :=
  ⟨h.regs, h.pc, h.mem, rfl, h.fault⟩

theorem Renamed.emit (h : Renamed r s s') (e e' : Event) : Renamed r (s.emit e) (s'.emit e') :=
  ⟨h.regs, h.pc, h.mem, h.runState, h.fault⟩

theorem Renamed.latchFault (h : Renamed r s s') (f : Fault) : Renamed r (s.latchFault f) (s'.latchFault f) :=
  ⟨h.regs, h.pc, h.mem, rfl, rfl⟩

/-- The outcomes `o` from `s` and `o'` from `s'` are next states, one the other renamed, and their new events are the
same but for the renaming. -/
def RenamedOutcome (r : Fin 8 → Fin 8) (s s' : State) (o o' : Host.Outcome State Fault Refusal) : Prop :=
  ∃ t t', o = .next t ∧ o' = .next t' ∧ Renamed r t t' ∧
    ∃ ev, t.trace = s.trace ++ ev ∧ t'.trace = s'.trace ++ ev.map (renameEvent r)

/-- Two next states that emitted nothing. -/
theorem RenamedOutcome.silent {o o' : Host.Outcome State Fault Refusal} {t t' : State} (ho : o = .next t)
    (ho' : o' = .next t') (h : Renamed r t t') (ht : t.trace = s.trace) (ht' : t'.trace = s'.trace) :
    RenamedOutcome r s s' o o' :=
  ⟨t, t', ho, ho', h, [], by simp [ht], by simp [ht']⟩

/-- An index out of range is not renamed, so both sides latch the same cause. -/
theorem RenamedOutcome.invalidIndex {o o' : Host.Outcome State Fault Refusal} (h : Renamed r s s')
    (ha : 8 ≤ a.toNat) (ho : o = .next (s.latchFault (.invalidRegisterIndex a)))
    (ho' : o' = .next (s'.latchFault (.invalidRegisterIndex (renameIndex r a)))) :
    RenamedOutcome r s s' o o' := by
  rw [renameIndex_of_ge ha] at ho'
  exact .silent ho ho' (h.latchFault _) rfl rfl

theorem execHlt_renamed (h : Renamed r s s') : RenamedOutcome r s s' (execHlt s) (execHlt s') :=
  .silent (execHlt_eq s) (execHlt_eq s') ((h.setRunState .halted).advance 1) rfl rfl

theorem execLdi_renamed (hinj : Function.Injective r) (h : Renamed r s s') (a b : Byte) :
    RenamedOutcome r s s' (execLdi a b s) (execLdi (renameIndex r a) b s') := by
  rcases Nat.lt_or_ge a.toNat 8 with ha | ha
  · exact .silent (execLdi_of_lt s b ha) (execLdi_of_lt s' b (renameIndex_lt ha))
      ((h.setReg hinj ha b).advance 3) rfl rfl
  · have ha' : 8 ≤ (renameIndex r a).toNat := by rwa [renameIndex_of_ge ha]
    exact .invalidIndex h ha (execLdi_of_ge s b ha) (execLdi_of_ge s' b ha')

theorem execPrn_renamed (h : Renamed r s s') (a : Byte) :
    RenamedOutcome r s s' (execPrn a s) (execPrn (renameIndex r a) s') := by
  rcases Nat.lt_or_ge a.toNat 8 with ha | ha
  · refine ⟨_, _, execPrn_of_lt s ha, execPrn_of_lt s' (renameIndex_lt ha), (h.emit _ _).advance 2, _, rfl, ?_⟩
    simp only [State.advance_trace, State.emit_trace, h.getElem ha, List.map_cons, List.map_nil, renameEvent]
  · have ha' : 8 ≤ (renameIndex r a).toNat := by rwa [renameIndex_of_ge ha]
    exact .invalidIndex h ha (execPrn_of_ge s ha) (execPrn_of_ge s' ha')

theorem execMul_renamed (hinj : Function.Injective r) (h : Renamed r s s') (a b : Byte) :
    RenamedOutcome r s s' (execMul a b s) (execMul (renameIndex r a) (renameIndex r b) s') := by
  rcases Nat.lt_or_ge a.toNat 8 with ha | ha
  · rcases Nat.lt_or_ge b.toNat 8 with hb | hb
    · have he := execMul_of_lt s' (renameIndex_lt (r := r) ha) (renameIndex_lt (r := r) hb)
      rw [h.getElem ha, h.getElem hb] at he
      exact .silent (execMul_of_lt s ha hb) he ((h.setReg hinj ha _).advance 3) rfl rfl
    · have hb' : 8 ≤ (renameIndex r b).toNat := by rwa [renameIndex_of_ge hb]
      exact .invalidIndex h hb (execMul_src_ge s ha hb) (execMul_src_ge s' (renameIndex_lt ha) hb')
  · have ha' : 8 ≤ (renameIndex r a).toNat := by rwa [renameIndex_of_ge ha]
    exact .invalidIndex h ha (execMul_dest_ge s b ha) (execMul_dest_ge s' _ ha')

/-- Renaming the registers in an instruction and in the state renames the outcome. -/
theorem exec_renamed (hinj : Function.Injective r) (h : Renamed r s s') (i : Instr) :
    RenamedOutcome r s s' (exec i s) (exec (renameInstr r i) s') := by
  cases i with
  | hlt => exact execHlt_renamed h
  | ldi a b => exact execLdi_renamed hinj h a b
  | prn a => exact execPrn_renamed h a
  | mul a b => exact execMul_renamed hinj h a b

end RenamedRegisters

/-- Settles O23 by `exec_renamed`, one lemma for each instruction. -/
theorem registersAreInterchangeable : Obligations.RegistersAreInterchangeable := by
  refine ⟨fun k => Vector.getElem_replicate k.isLt, ?_⟩
  intro r hinj i s s' t hregs hpc hmem hrun hfault ht
  obtain ⟨u, t', hu, ht', h, hev⟩ := exec_renamed hinj ⟨hregs, hpc, hmem, hrun, hfault⟩ i
  obtain rfl : t = u := by
    rw [ht] at hu
    cases hu
    rfl
  exact ⟨t', ht', h.regs, h.pc, h.mem, h.runState, h.fault, hev⟩

end Sys2Proof.Machine

/-! ## Proofs about memory (20_memory.md): the checked accessors, and what a step does to memory -/

namespace Sys2Proof.Machine

section MemoryWrites
variable {s : State} {addr : Nat}

/-- A cell reads back what was written to it (rule R33). -/
theorem memRead_poke_same (hs : s.mem.wf = true) (h : addr < 256) (v : Byte) :
    memRead addr (s.setMem (s.mem.poke addr v)) = .ok v := by
  rw [memRead_of_lt h, State.setMem_mem, Memory.peek_poke hs, if_pos rfl]

/-- A write to one cell leaves what every other address reads, in range or not (rule R33). -/
theorem memRead_poke_of_ne {k : Nat} (hs : s.mem.wf = true) (hne : k ≠ addr) (v : Byte) :
    memRead k (s.setMem (s.mem.poke addr v)) = memRead k s := by
  rcases Nat.lt_or_ge k 256 with hk | hk
  · rw [memRead_of_lt hk, memRead_of_lt hk, State.setMem_mem, Memory.peek_poke hs, if_neg hne]
  · rw [memRead_of_ge hk, memRead_of_ge hk]

end MemoryWrites

/-- No case of a step writes memory: the parts it is made of are register writes, events, the latch, the run state and
the advance of pc, and each leaves memory (rules R36, R42). -/
theorem StepCase.mem_eq {s t : State} (h : StepCase s t) : t.mem = s.mem := by
  cases h <;>
    simp only [State.advance_mem, State.setRunState_mem, State.setReg_mem, State.emit_mem, State.latchFault_mem]

/-- Settles O30: one case of the read for each side of the bound. -/
theorem memReadContract : Obligations.MemReadContract :=
  fun _ s => ⟨fun h => memRead_of_ge h s, fun h => memRead_of_lt h s⟩

/-- Settles O31 by the two read-after-write lemmas, and by the inversion lemma for the steps. -/
theorem memWriteContract : Obligations.MemWriteContract := by
  refine ⟨fun addr v s hs => ?_, fun s t h => (step_inv h).mem_eq⟩
  refine ⟨fun h => memWrite_of_ge h v s, fun h => ⟨_, memWrite_of_lt h v s, ?_, ?_, rfl⟩⟩
  · exact memRead_poke_same hs h v
  · exact fun k hk => memRead_poke_of_ne hs hk v

end Sys2Proof.Machine

/-! ## Proofs about the encoding (30_encoding.md): length, dispatch table, the skip of unsupported opcodes -/

namespace Sys2Proof

/-- A byte that decodes is the opcode byte of the instruction it decodes to (rule R57). -/
theorem opcode_eq_of_decode {w : Window} {i : Instr} (h : decode w = .ok i) : w.opcode = i.opcode := by
  rcases decode_cases w with ⟨ho, hd⟩ | ⟨ho, hd⟩ | ⟨ho, hd⟩ | ⟨ho, hd⟩ | ⟨_, _, _, _, hd⟩ <;> rw [hd] at h <;> cases h
  all_goals exact ho

/-- Each instruction's encoding is as long as its opcode byte says, whatever its operands (rules R50, R51). -/
theorem length_encode (i : Instr) : (encode i).length = opLength i.opcode := by
  cases i with
  | hlt => exact Laws.EncodedLength.hlt
  | ldi a b => exact Laws.EncodedLength.ldi a b
  | prn a => exact Laws.EncodedLength.prn a
  | mul a b => exact Laws.EncodedLength.mul a b

/-- Bits 7:6 of a byte are its number divided by 64. -/
theorem extractLsb_seven_six_toNat (o : Byte) : (o.extractLsb 7 6).toNat = o.toNat / 64 := by
  have ho := o.isLt
  rw [BitVec.extractLsb_toNat, Nat.shiftRight_eq_div_pow]
  omega

/-- From 0xC0 on bits 7:6 are both set (rule R52). -/
theorem opLength_of_ge {o : Byte} (h : 0xC0 ≤ o.toNat) : opLength o = 4 := by
  have ho := o.isLt
  rw [opLength_eq]
  omega

namespace Machine

/-- A byte in no row of the dispatch table is rejected by name, whatever follows it (rule R59). -/
theorem decode_of_not_recognised {o : Byte} (h : ¬ Recognised o) (a b : Byte) :
    decode ⟨o, a, b⟩ = .error (.unsupportedOpcode o) := by
  rcases decode_cases ⟨o, a, b⟩ with ⟨ho, _⟩ | ⟨ho, _⟩ | ⟨ho, _⟩ | ⟨ho, _⟩ | ⟨_, _, _, _, hd⟩
  · exact absurd (.inl ho) h
  · exact absurd (.inr (.inl ho)) h
  · exact absurd (.inr (.inr (.inl ho))) h
  · exact absurd (.inr (.inr (.inr ho))) h
  · exact hd

/-- Every recognised opcode is below 0xC0: none has four bytes (rules R52, R57). -/
theorem Recognised.toNat_lt {o : Byte} (h : Recognised o) : o.toNat < 0xC0 := by
  obtain rfl | rfl | rfl | rfl := h <;> decide

/-- The skip of an unsupported opcode, in terms of the fetched bytes (rules R59, R77). -/
theorem FetchesAtPc.step_skip {s : State} {o a b : Byte} (h : FetchesAtPc s o a b) (ho : ¬ Recognised o) :
    step s = .next ((s.emit (.diag s.pc o)).advance (opLength o)) := by
  obtain ⟨hr, hpc, rfl, _, _⟩ := h
  exact step_at_unrecognised hr hpc ho

/-- A fetch depends on memory only through the three cells it reads (rules R39, R54). -/
theorem FetchesAtPc.of_agree {s : State} {o a b : Byte} {m : Memory} (h : FetchesAtPc s o a b)
    (hm : ∀ k, k ≤ 2 → m.peek (s.pc.toNat + k) = s.mem.peek (s.pc.toNat + k)) :
    FetchesAtPc (s.setMem m) o a b := by
  obtain ⟨hr, hpc, ho, ha, hb⟩ := h
  exact ⟨hr, hpc, (hm 0 (by decide)).trans ho, (hm 1 (by decide)).trans ha, (hm 2 (by decide)).trans hb⟩

/-- Settles O2: the four rows by evaluation, every other byte by `decode_of_not_recognised`. -/
theorem dispatchTableIsExact : Obligations.DispatchTableIsExact := by
  intro o a b
  refine ⟨?_, ?_, ?_, ?_, fun h => decode_of_not_recognised h a b⟩
  · rintro rfl
    exact ⟨decode_hlt a b, rfl, opLength_opHlt, rfl⟩
  · rintro rfl
    exact ⟨decode_ldi a b, rfl, opLength_opLdi, rfl⟩
  · rintro rfl
    exact ⟨decode_prn a b, rfl, opLength_opPrn, rfl⟩
  · rintro rfl
    exact ⟨decode_mul a b, rfl, opLength_opMul, rfl⟩

/-- Settles O3: the length formula on bits 7:6, and the encoding's length by way of its opcode byte. -/
theorem lengthIsBitsSevenSixPlusOne : Obligations.LengthIsBitsSevenSixPlusOne := by
  refine ⟨fun o => ?_, fun w i h => ?_⟩
  · rw [opLength_eq, extractLsb_seven_six_toNat]
  · rw [opcode_eq_of_decode h, length_encode]

/-- Settles O4: the skip at length 4, and again with the other memory, which is fetched from alike. -/
theorem highOpcodesSkipFourBytes : Obligations.HighOpcodesSkipFourBytes := by
  intro s o a b hf hge
  have hlen : opLength o = 4 := opLength_of_ge hge
  have hrec : ¬ Recognised o := fun h => Nat.not_lt.2 hge h.toNat_lt
  have skip {t : State} (ht : FetchesAtPc t o a b) : step t = .next ((t.emit (.diag t.pc o)).advance 4) :=
    hlen ▸ ht.step_skip hrec
  exact ⟨hlen, hrec, skip hf, fun m hm => skip (hf.of_agree hm)⟩

/-- Settles O9 by the skip of an unsupported opcode, and by the fetch fault at 254 and 255. -/
theorem unsupportedOpcodeIsSkipped : Obligations.UnsupportedOpcodeIsSkipped := by
  refine ⟨fun s o a b hf ho => ?_, fun s hr hpc => ?_⟩
  · rw [hf.step_skip ho, opLength_eq]
    rfl
  · have hfetch : fetch s = .error (.outOfBoundsAccess 256) := by
      rw [fetch_of_ge (by omega), Nat.max_eq_right (by omega)]
    exact step_of_fetch_error hr hfetch

end Machine

end Sys2Proof

/-! ## Proofs about the execution loop (40_execution_loop.md): the per-step algorithm, the advance of pc -/

namespace Sys2Proof.Machine

/-! ### The advance of pc (rule R78) -/

/-- The advance in 9 bits is the sum of numbers, taken back to 9 bits. -/
theorem State.advance_eq_ofNat (s : State) (n : Nat) :
    s.advance n = { s with pc := BitVec.ofNat 9 (s.pc.toNat + n) } := by
  rw [BitVec.ofNat_add, BitVec.ofNat_toNat, BitVec.setWidth_eq]
  rfl

/-- From where three bytes can be fetched, no decoded length makes the advance wrap (rule R164). -/
theorem State.advance_opLength_toNat {s : State} (hpc : s.pc.toNat ≤ 253) (o : Byte) :
    (s.advance (opLength o)).pc.toNat = s.pc.toNat + opLength o := by
  have hlen := opLength_le o
  rw [State.advance_eq_ofNat, BitVec.toNat_ofNat, Nat.mod_eq_of_lt (by omega)]

/-- A step of a running core either faults and leaves pc, or moves pc from at most 253 by the decoded length of the byte
it stood at (rule R78). -/
theorem StepCase.pc_cases {s t : State} (h : StepCase s t) (hr : s.runState = .running) :
    (t.runState = .faulted ∧ t.pc = s.pc) ∨
      (t.runState ≠ .faulted ∧ s.pc.toNat ≤ 253 ∧ t.pc = (s.advance (opLength (s.mem.peek s.pc.toNat))).pc) := by
  have notFaulted : s.runState ≠ .faulted := by simp [hr]
  cases h with
  | idle hn => exact absurd hr hn
  | fetchFault => exact .inl ⟨rfl, rfl⟩
  | operandAFault => exact .inl ⟨rfl, rfl⟩
  | operandBFault => exact .inl ⟨rfl, rfl⟩
  | hlt _ hpc ho => exact .inr ⟨nofun, hpc, by rw [ho]; rfl⟩
  | ldi _ hpc ho => exact .inr ⟨notFaulted, hpc, by rw [ho]; rfl⟩
  | prn _ hpc ho => exact .inr ⟨notFaulted, hpc, by rw [ho]; rfl⟩
  | mul _ hpc ho => exact .inr ⟨notFaulted, hpc, by rw [ho]; rfl⟩
  | skip _ hpc => exact .inr ⟨notFaulted, hpc, rfl⟩

/-- Settles O10 by the two ways a running core's pc can go, and by the advance that does not wrap. -/
theorem pcAdvancesByDecodedLength : Obligations.PcAdvancesByDecodedLength := by
  intro s t hr h
  rcases (step_inv h).pc_cases hr with ⟨hf, hsame⟩ | ⟨hn, hpc, hmove⟩
  · exact ⟨fun _ => hsame, fun hn => absurd hf hn⟩
  · have hlen := opLength_le (s.mem.peek s.pc.toNat)
    have hsum : t.pc.toNat = s.pc.toNat + opLength (s.mem.peek s.pc.toNat) := by
      rw [hmove, State.advance_opLength_toNat hpc]
    exact ⟨fun hf => absurd hf hn, fun _ => ⟨by rw [hsum, opLength_eq], by omega⟩⟩

/-! ### The per-step algorithm, case by case (rule R70) -/

theorem perStepAlgorithm_of_not_running {s : State} (h : s.runState ≠ .running) : perStepAlgorithm s = s :=
  if_pos h

/-- The three fetches in order: the first address out of range is pc past the end of memory, or 256. -/
theorem perStepAlgorithm_of_ge {s : State} (hr : s.runState = .running) (hpc : 254 ≤ s.pc.toNat) :
    perStepAlgorithm s = s.latchFault (.outOfBoundsAccess (max s.pc.toNat 256)) := by
  simp only [perStepAlgorithm, hr, ne_eq, not_true_eq_false, if_false]
  split
  case isTrue h0 => rw [Nat.max_eq_left h0]; rfl
  case isFalse h0 =>
    rw [Nat.max_eq_right (by omega)]
    split
    case isTrue h1 => rw [show s.pc.toNat + 1 = 256 by omega]; rfl
    case isFalse h1 => rw [if_pos (by omega), show s.pc.toNat + 2 = 256 by omega]; rfl

/-- Where three bytes can be fetched, none of the three range checks fails. -/
theorem rangeChecks_of_le {s : State} (hpc : s.pc.toNat ≤ 253) :
    ¬ 256 ≤ s.pc.toNat ∧ ¬ 256 ≤ s.pc.toNat + 1 ∧ ¬ 256 ≤ s.pc.toNat + 2 := by
  omega

/-- Each case of a step ends where the per-step algorithm does. -/
theorem StepCase.eq_perStepAlgorithm {s t : State} (h : StepCase s t) : t = perStepAlgorithm s := by
  cases h with
  | idle hr => exact (perStepAlgorithm_of_not_running hr).symm
  | fetchFault hr hpc => exact (perStepAlgorithm_of_ge hr hpc).symm
  | hlt hr hpc ho => simp [perStepAlgorithm, hr, rangeChecks_of_le hpc, ho, State.advance_eq_ofNat]
  | ldi hr hpc ho ha => simp [perStepAlgorithm, hr, rangeChecks_of_le hpc, ho, ha, State.advance_eq_ofNat]
  | prn hr hpc ho ha => simp [perStepAlgorithm, hr, rangeChecks_of_le hpc, ho, ha, State.advance_eq_ofNat]
  | mul hr hpc ho ha hb => simp [perStepAlgorithm, hr, rangeChecks_of_le hpc, ho, ha, hb, State.advance_eq_ofNat]
  | operandAFault hr hpc ho ha =>
    rcases ho with ho | ho | ho <;>
      simp [perStepAlgorithm, hr, rangeChecks_of_le hpc, ho, Nat.not_lt.2 ha, State.latchFault]
  | operandBFault hr hpc ho ha hb =>
    simp [perStepAlgorithm, hr, rangeChecks_of_le hpc, ho, ha, Nat.not_lt.2 hb, State.latchFault]
  | skip hr hpc h1 h2 h3 h4 =>
    simp [perStepAlgorithm, hr, rangeChecks_of_le hpc, h1, h2, h3, h4, opLength_eq, State.advance_eq_ofNat]

/-- Settles O8: the step answers the state of the case that applies, and the algorithm ends there. -/
theorem stepFollowsPerStepAlgorithm : Obligations.StepFollowsPerStepAlgorithm := by
  intro s _
  obtain ⟨t, ht, hc⟩ := step_cases s
  rw [ht, hc.eq_perStepAlgorithm]

end Sys2Proof.Machine

/-! ## Proofs about load immediate (41_load_immediate.md) -/

namespace Sys2Proof.Machine

/-- A step at fetched bytes that decode is that instruction's `exec` (rule R76). -/
theorem FetchesAtPc.step_eq_exec {s : State} {o a b : Byte} {i : Instr} (h : FetchesAtPc s o a b)
    (hd : decode ⟨o, a, b⟩ = .ok i) : step s = exec i s := by
  obtain ⟨hr, hpc, rfl, rfl, rfl⟩ := h
  exact step_of_decode hr hpc hd

/-- At 254 and 255 the fetch runs past the end of memory at address 256, before any opcode is looked at (rule R126). -/
theorem step_at_last_two_cells {s : State} (hr : s.runState = .running)
    (hpc : s.pc.toNat = 254 ∨ s.pc.toNat = 255) : step s = .next (s.latchFault (.outOfBoundsAccess 256)) := by
  have hfetch : fetch s = .error (.outOfBoundsAccess 256) := by
    rw [fetch_of_ge (by omega), Nat.max_eq_right (by omega)]
  exact step_of_fetch_error hr hfetch

/-- Settles O16: the two cases of `execLdi` by its operand, the step at the fetched bytes, and the earlier fetch fault. -/
theorem ldiLoadsImmediate : Obligations.LdiLoadsImmediate := by
  intro a b s
  have encoded : encode (.ldi a b) = [0b10000010#8, a, b] := rfl
  exact ⟨encoded, decode_ldi a b, fun ha => execLdi_of_lt s b ha, fun ha => execLdi_of_ge s b ha,
    fun h => h.step_eq_exec (decode_ldi a b), step_at_last_two_cells⟩

end Sys2Proof.Machine

/-! ## Proofs about output (42_output.md) -/

namespace Sys2Proof.Machine

/-- Settles O17: the register is read before anything is emitted (rule R95), so the effect is one of the two cases of
`execPrn` by its operand; then the step at the fetched bytes, and the earlier fetch fault. -/
theorem prnPrintsRegister : Obligations.PrnPrintsRegister := by
  intro a b s
  have encoded : encode (.prn a) = [0b01000111#8, a] := rfl
  exact ⟨encoded, decode_prn a b, fun ha => execPrn_of_lt s ha, fun ha => execPrn_of_ge s ha,
    fun h => h.step_eq_exec (decode_prn a b), step_at_last_two_cells⟩

end Sys2Proof.Machine

/-! ## Proofs about the ALU and MUL (43_alu.md) -/

namespace Sys2Proof.Machine

/-! ### Results reduced modulo 256 (rule R105) -/

/-- Reducing a result before it is written changes nothing: the write reduces it in any case. -/
theorem wrap8_mod (n : Nat) : wrap8 (n % 256) = wrap8 n :=
  BitVec.eq_of_toNat_eq (by rw [wrap8_toNat, wrap8_toNat, Nat.mod_mod])

section legalOperands
variable {d s : Byte} (hd : d.toNat < 8) (hs : s.toNat < 8) (st : State)
include hs

/-- ADD writes the sum modulo 256 (rule R101). -/
theorem aluApply_add_of_lt :
    aluApply .add d s st =
      .ok (st.setReg d.toNat (wrap8 ((st.regs[d.toNat].toNat + st.regs[s.toNat].toNat) % 256)) hd) := by
  rw [wrap8_mod]
  exact aluBinary_of_lt _ hd hs st

/-- MUL writes the product modulo 256 (rule R102). -/
theorem aluApply_mul_of_lt :
    aluApply .mul d s st =
      .ok (st.setReg d.toNat (wrap8 ((st.regs[d.toNat].toNat * st.regs[s.toNat].toNat) % 256)) hd) := by
  rw [wrap8_mod]
  exact aluBinary_of_lt _ hd hs st

/-- The instruction MUL is the ALU's MUL and the advance by its three bytes (rule R104). -/
theorem execMul_of_lt_mod :
    execMul d s st = .next ((st.setReg d.toNat
      (wrap8 ((st.regs[d.toNat].toNat * st.regs[s.toNat].toNat) % 256)) hd).advance 3) := by
  rw [execMul, handleMul, aluApply_mul_of_lt hd hs st, complete_ok, opLength_opMul]

end legalOperands

/-- Settles O18: the three cases of `execMul` by its operands, the step at the fetched bytes, and the earlier fetch
fault. -/
theorem mulMultipliesRegisters : Obligations.MulMultipliesRegisters := by
  intro a b s
  have encoded : encode (.mul a b) = [0b10100010#8, a, b] := rfl
  exact ⟨encoded, decode_mul a b, fun ha hb => execMul_of_lt_mod ha hb s, fun ha => execMul_dest_ge s b ha,
    fun ha hb => execMul_src_ge s ha hb, fun h => h.step_eq_exec (decode_mul a b), step_at_last_two_cells⟩

/-- Settles O26: the product does not depend on the order of the factors, so one byte serves both directions. -/
theorem aluMulWraps : Obligations.AluMulWraps := by
  intro d s st hd hs
  have swapped := aluApply_mul_of_lt hs hd st
  rw [Nat.mul_comm] at swapped
  refine ⟨_, ?_, aluApply_mul_of_lt hd hs st, swapped, ?_⟩
  · rw [wrap8_toNat, Nat.mod_mod]
  · rintro rfl
    rw [wrap8_toNat, Nat.mod_mod]

/-! ### What a step writes to the registers -/

section fetched
variable {s t : State} {a b : Byte}

theorem FetchesAtPc.ldi_regs (h : FetchesAtPc s 0x82#8 a b) (ht : step s = .next t) (ha : a.toNat < 8) :
    t.regs = s.regs.set a.toNat b ha := by
  have hstep := (h.step_eq_exec (decode_ldi a b)).trans (execLdi_of_lt s b ha)
  cases ht.symm.trans hstep
  rfl

theorem FetchesAtPc.mul_regs (h : FetchesAtPc s 0xA2#8 a b) (ht : step s = .next t) (ha : a.toNat < 8)
    (hb : b.toNat < 8) :
    t.regs = s.regs.set a.toNat (wrap8 ((s.regs[a.toNat].toNat * s.regs[b.toNat].toNat) % 256)) ha := by
  have hstep := (h.step_eq_exec (decode_mul a b)).trans (execMul_of_lt_mod ha hb s)
  cases ht.symm.trans hstep
  rfl

/-- Only LDI and MUL with legal register operands write a register: every other case of a step leaves all eight. -/
theorem StepCase.regs_eq (h : StepCase s t) (hldi : ∀ a b, FetchesAtPc s 0x82#8 a b → 8 ≤ a.toNat)
    (hmul : ∀ a b, FetchesAtPc s 0xA2#8 a b → 8 ≤ a.toNat ∨ 8 ≤ b.toNat) : t.regs = s.regs := by
  cases h with
  | ldi hr hpc ho ha => exact absurd (hldi _ _ ⟨hr, hpc, ho, rfl, rfl⟩) (Nat.not_le.2 ha)
  | mul hr hpc ho ha hb =>
    rcases hmul _ _ ⟨hr, hpc, ho, rfl, rfl⟩ with hge | hge
    · exact absurd hge (Nat.not_le.2 ha)
    · exact absurd hge (Nat.not_le.2 hb)
  | _ => rfl

end fetched

/-- Settles O25: ADD by its one outcome, doubled for equal operands; a step by the two cases that write a register, and
by `StepCase.regs_eq` for the others, also where nothing is fetched. -/
theorem aluAddWraps : Obligations.AluAddWraps := by
  refine ⟨fun d s st hd hs => aluApply_add_of_lt hd hs st, fun d st hd => ?_, fun s t o a b hf h => ?_,
    fun s t hs h => ?_⟩
  · rw [Nat.two_mul]
    exact aluApply_add_of_lt hd hd st
  · refine ⟨?_, ?_, fun hldi hmul => (step_inv h).regs_eq ?_ ?_⟩
    · rintro rfl ha
      exact hf.ldi_regs h ha
    · rintro rfl ha hb
      exact hf.mul_regs h ha hb
    · obtain ⟨_, _, rfl, rfl, rfl⟩ := hf
      rintro _ _ ⟨_, _, ho, rfl, rfl⟩
      exact hldi ho
    · obtain ⟨_, _, rfl, rfl, rfl⟩ := hf
      rintro _ _ ⟨_, _, ho, rfl, rfl⟩
      exact hmul ho
  · have unfetched (o a b : Byte) : ¬ FetchesAtPc s o a b := fun ⟨hr, hpc, _⟩ => by
      rcases hs with hn | hge
      · exact hn hr
      · omega
    exact (step_inv h).regs_eq (fun a b hf => absurd hf (unfetched _ a b))
      (fun a b hf => absurd hf (unfetched _ a b))

end Sys2Proof.Machine

/-! ## Proofs about halting (44_halt.md) -/

namespace Sys2Proof.Machine

/-- Once the core has left `Idle`, no host request but reset changes it, in any load phase (rules R151, R153, R154). -/
theorem Session.apply_core_of_not_idle {c : Session} (h : c.core.runState ≠ .idle) {op : HostOp} (hop : op ≠ .reset) :
    (c.apply op).core = c.core := by
  rcases c.apply_core_cases op with he | ⟨hr, _⟩ | ⟨img, _, he⟩ | ⟨_, he⟩
  · exact he
  · exact absurd hr hop
  · rw [he, applyLoad_of_not_idle h]
  · rw [he, applyStart_of_not_idle h]

/-- Settles O19: the effect by `execHlt_eq`, the step at the fetched bytes, the earlier fetch fault; a halted core is
neither `Running`, so no step changes it, nor `Idle`, so no request but reset does. -/
theorem hltHaltsForGood : Obligations.HltHaltsForGood := by
  intro a b s
  have encoded : encode .hlt = [0b00000001#8] := rfl
  refine ⟨encoded, decode_hlt a b, execHlt_eq s, fun h => h.step_eq_exec (decode_hlt a b), step_at_last_two_cells,
    fun hh => ⟨fun t ht => ?_, fun p op hop => ?_⟩⟩
  · have still : step s = .next s := step_of_not_running (by simp [hh])
    cases ht.symm.trans still
    rfl
  · exact Session.apply_core_of_not_idle (c := ⟨s, p⟩) (by simp [hh]) hop

end Sys2Proof.Machine

/-! ## Proofs about faults (60_exceptions.md): the causes a step raises, their order, the entry -/

namespace Sys2Proof.Machine

/-! ### What a step of a running core raises -/

/-- The cause `f` is raised by a step of the running core in `s` (rules R121, R122, R123): pc itself stands past the end
of memory, or `f` is one of the causes `LatchFits` lists, which stops at pc 257. -/
def StepRaises (s : State) (f : Fault) : Prop :=
  (256 ≤ s.pc.toNat ∧ f = .outOfBoundsAccess s.pc.toNat) ∨ LatchFits s f

/-- A fetch past the end of memory raises a listed cause, or names pc itself. -/
theorem stepRaises_fetchFault {s : State} (hpc : 254 ≤ s.pc.toNat) :
    StepRaises s (.outOfBoundsAccess (max s.pc.toNat 256)) := by
  rcases Nat.lt_or_ge s.pc.toNat 256 with hlt | hge
  · simp only [StepRaises, LatchFits]
    omega
  · rw [Nat.max_eq_left hge]
    exact .inl ⟨hge, rfl⟩

/-- No step raises the ALU's selector fault (rule R123). -/
theorem not_stepRaises_unsupportedALUOperation (s : State) (op : AluOp) :
    ¬ StepRaises s (.unsupportedALUOperation op) := by
  rintro (⟨_, h⟩ | h) <;> cases h

/-- A step leaves the latch and does not enter `Faulted`, or it latches a cause it raises and changes nothing else
(rule R128). -/
theorem StepCase.latch_cases {s t : State} (h : StepCase s t) :
    (t.fault = s.fault ∧ (t.runState = .faulted → s.runState = .faulted)) ∨
      ∃ f, t = s.latchFault f ∧ StepRaises s f := by
  cases h with
  | idle => exact .inl ⟨rfl, id⟩
  | fetchFault _ hpc => exact .inr ⟨_, rfl, stepRaises_fetchFault hpc⟩
  | hlt => exact .inl ⟨rfl, nofun⟩
  | ldi => exact .inl ⟨rfl, id⟩
  | prn => exact .inl ⟨rfl, id⟩
  | mul => exact .inl ⟨rfl, id⟩
  | operandAFault _ hpc ho ha => exact .inr ⟨_, rfl, .inr ⟨ha, hpc, .inl ⟨ho, rfl⟩⟩⟩
  | operandBFault _ hpc ho ha hb => exact .inr ⟨_, rfl, .inr ⟨hb, hpc, .inr ⟨ho, ha, rfl⟩⟩⟩
  | skip => exact .inl ⟨rfl, id⟩

section running
variable {s : State} (hr : s.runState = .running)
include hr

theorem StepCase.eq_latchFault {t : State} (h : StepCase s t) (ht : t.runState = .faulted) :
    ∃ f, t = s.latchFault f ∧ StepRaises s f := by
  rcases h.latch_cases with ⟨_, hs⟩ | hf
  · exact absurd (hr.symm.trans (hs ht)) nofun
  · exact hf

/-- The first address out of range is the one named, whatever the bytes are (rules R121, R126). -/
theorem step_fetchFault (hpc : 254 ≤ s.pc.toNat) :
    step s = .next (s.latchFault (.outOfBoundsAccess (max s.pc.toNat 256))) :=
  (StepCase.fetchFault hr hpc).step_eq

theorem step_of_stepRaises {f : Fault} (h : StepRaises s f) : step s = .next (s.latchFault f) := by
  rcases h with ⟨hge, rfl⟩ | h
  · have hstep := step_fetchFault hr (by omega)
    rwa [Nat.max_eq_left hge] at hstep
  cases f with
  | outOfBoundsAccess addr =>
    simp only [LatchFits] at h
    obtain rfl : addr = max s.pc.toNat 256 := by omega
    exact step_fetchFault hr (by omega)
  | invalidRegisterIndex k =>
    obtain ⟨hk, hpc, ⟨ho, rfl⟩ | ⟨ho, ha, rfl⟩⟩ := h
    · exact (StepCase.operandAFault hr hpc ho hk).step_eq
    · exact (StepCase.operandBFault hr hpc ho ha hk).step_eq
  | unsupportedALUOperation op => exact h.elim

/-- The causes of `StepRaises` are exactly those a step of a running core latches. -/
theorem step_eq_latchFault_iff {f : Fault} : step s = .next (s.latchFault f) ↔ StepRaises s f := by
  refine ⟨fun h => ?_, step_of_stepRaises hr⟩
  obtain ⟨g, hg, hraises⟩ := (step_inv h).eq_latchFault hr rfl
  cases Option.some.inj (congrArg State.fault hg)
  exact hraises

end running

/-- At three fetched bytes the fault of an operand is decided by the opcode and by the operands in order (rule R122). -/
theorem FetchesAtPc.stepRaises_invalidRegisterIndex_iff {s : State} {o a b k : Byte} (h : FetchesAtPc s o a b) :
    StepRaises s (.invalidRegisterIndex k) ↔
      ((o = 0x82#8 ∨ o = 0x47#8 ∨ o = 0xA2#8) ∧ 8 ≤ a.toNat ∧ k = a) ∨
        (o = 0xA2#8 ∧ a.toNat < 8 ∧ 8 ≤ b.toNat ∧ k = b) := by
  obtain ⟨_, hpc, rfl, rfl, rfl⟩ := h
  constructor
  · rintro (⟨_, hf⟩ | ⟨hk, _, ⟨ho, rfl⟩ | ⟨ho, ha, rfl⟩⟩)
    · cases hf
    · exact .inl ⟨ho, hk, rfl⟩
    · exact .inr ⟨ho, ha, hk, rfl⟩
  · rintro (⟨ho, ha, rfl⟩ | ⟨ho, ha, hb, rfl⟩)
    · exact .inr ⟨ha, hpc, .inl ⟨ho, rfl⟩⟩
    · exact .inr ⟨hb, hpc, .inr ⟨ho, ha, rfl⟩⟩

/-! ### The checked accessors -/

/-- An access that succeeds below a bound and raises from the bound on raises exactly from the bound on. -/
theorem eq_error_iff_le {α : Type} {r : Except Fault α} {f : Fault} {bound k : Nat}
    (hok : k < bound → ∃ v, r = .ok v) (herr : bound ≤ k → r = .error f) : r = .error f ↔ bound ≤ k := by
  refine ⟨fun h => Nat.le_of_not_lt fun hlt => ?_, herr⟩
  obtain ⟨v, hv⟩ := hok hlt
  cases h.symm.trans hv

/-! ### The obligations -/

/-- Settles O32: a step that ends `Faulted` latched a cause and did nothing else; a faulted core is not `Running`. -/
theorem faultsArePrecise : Obligations.FaultsArePrecise := by
  intro s t hr h ht
  obtain ⟨f, hf, _⟩ := (step_inv h).eq_latchFault hr ht
  have still : step t = .next t := step_of_not_running (by simp [ht])
  refine ⟨⟨f, hf⟩, fun u hu => ?_⟩
  cases hu.symm.trans still
  rfl

/-- Settles O33: the accessors by their two outcomes; the step by `step_eq_latchFault_iff`, where the bound on pc leaves
four cases. -/
theorem outOfBoundsAccessExactly : Obligations.OutOfBoundsAccessExactly := by
  refine ⟨fun addr v s => ⟨?_, ?_⟩, fun s addr hr hpc => ?_⟩
  · exact eq_error_iff_le (fun h => ⟨_, memRead_of_lt h s⟩) (fun h => memRead_of_ge h s)
  · exact eq_error_iff_le (fun h => ⟨_, memWrite_of_lt h v s⟩) (fun h => memWrite_of_ge h v s)
  · refine (step_eq_latchFault_iff hr).trans ?_
    simp only [StepRaises, LatchFits, Fault.outOfBoundsAccess.injEq]
    omega

/-- Settles O34: the accessors by their two outcomes; the step by `step_eq_latchFault_iff` at the fetched bytes. -/
theorem invalidRegisterIndexExactly : Obligations.InvalidRegisterIndexExactly := by
  refine ⟨fun i v s => ⟨?_, ?_⟩, fun s o a b k hf => ?_⟩
  · exact eq_error_iff_le (fun h => ⟨_, regRead_of_lt h s⟩) (fun h => regRead_of_ge h s)
  · exact eq_error_iff_le (fun h => ⟨_, regWrite_of_lt h v s⟩) (fun h => regWrite_of_ge h v s)
  · refine (step_eq_latchFault_iff hf.1).trans (hf.stepRaises_invalidRegisterIndex_iff.trans ?_)
    simp only [or_and_right, or_assoc]

/-- Settles O35: a fetch past the end of memory raises before any byte is looked at, an unsupported opcode is skipped, a
bad operand raises by the order in `StepRaises`; the selector's fault is none of the causes a step raises. -/
theorem faultPriority : Obligations.FaultPriority := by
  refine ⟨fun s hr => ⟨fun hpc => ?_, fun hpc => ?_, fun hpc => ?_⟩,
    fun s o a b hf => ⟨fun ho => ?_, fun ho ha => ?_, fun ho ha hb => ?_⟩, fun s t op h ht => ?_⟩
  · exact step_of_stepRaises hr (.inl ⟨hpc, rfl⟩)
  · rw [hpc]
    exact step_at_last_two_cells hr (.inr hpc)
  · rw [hpc]
    exact step_at_last_two_cells hr (.inl hpc)
  · exact ⟨_, hf.step_skip ho, hf.1, rfl⟩
  · exact step_of_stepRaises hf.1 (hf.stepRaises_invalidRegisterIndex_iff.2 (.inl ⟨ho, ha, rfl⟩))
  · exact step_of_stepRaises hf.1 (hf.stepRaises_invalidRegisterIndex_iff.2 (.inr ⟨ho, ha, hb, rfl⟩))
  · rcases (step_inv h).latch_cases with ⟨hsame, _⟩ | ⟨f, rfl, hraises⟩
    · exact hsame.symm
    · cases ht
      exact absurd hraises (not_stepRaises_unsupportedALUOperation s op)

end Sys2Proof.Machine

/-! ## Proofs about reset, load, start and software's duties (70_reset_and_hazards.md) -/

namespace Sys2Proof

/-! ### Software's duty about register operands (rule R159) -/

theorem regIndexOk_iff {i : Byte} : regIndexOk i = true ↔ i.toNat < 8 :=
  decide_eq_true_iff

theorem regIndexOk_eq_false_iff {i : Byte} : regIndexOk i = false ↔ 8 ≤ i.toNat :=
  decide_eq_false_iff_not.trans Nat.not_lt

namespace Machine

section duty
variable {i : Instr} (s : State)

/-- With legal register operands a handler leaves pc and the latch and does not fault; what remains is the advance past
the instruction's bytes. -/
theorem exec_of_wf (hs : s.runState ≠ .faulted) (h : i.wf = true) :
    ∃ u : State, exec i s = .next (u.advance (encode i).length) ∧ u.runState ≠ .faulted ∧ u.fault = s.fault ∧
      u.pc = s.pc := by
  cases i with
  | hlt => exact ⟨_, execHlt_eq s, nofun, rfl, rfl⟩
  | ldi a b => exact ⟨_, execLdi_of_lt s b (regIndexOk_iff.1 h), hs, rfl, rfl⟩
  | prn a => exact ⟨_, execPrn_of_lt s (regIndexOk_iff.1 h), hs, rfl, rfl⟩
  | mul a b =>
    obtain ⟨ha, hb⟩ := Bool.and_eq_true_iff.1 h
    exact ⟨_, execMul_of_lt s (regIndexOk_iff.1 ha) (regIndexOk_iff.1 hb), hs, rfl, rfl⟩

/-- Otherwise the first illegal register operand is latched, and nothing else is done. -/
theorem exec_of_not_wf (h : i.wf = false) :
    ∃ k : Byte, 8 ≤ k.toNat ∧ k ∈ (encode i).tail ∧ exec i s = .next (s.latchFault (.invalidRegisterIndex k)) := by
  cases i with
  | hlt => cases h
  | ldi a b =>
    have ha := regIndexOk_eq_false_iff.1 h
    exact ⟨a, ha, .head _, execLdi_of_ge s b ha⟩
  | prn a =>
    have ha := regIndexOk_eq_false_iff.1 h
    exact ⟨a, ha, .head _, execPrn_of_ge s ha⟩
  | mul a b =>
    rcases Nat.lt_or_ge a.toNat 8 with ha | ha
    · have hb : 8 ≤ b.toNat := by
        rw [Instr.wf, regIndexOk_iff.2 ha, Bool.true_and] at h
        exact regIndexOk_eq_false_iff.1 h
      exact ⟨b, hb, .tail _ (.head _), execMul_src_ge s ha hb⟩
    · exact ⟨a, ha, .head _, execMul_dest_ge s b ha⟩

end duty

/-- Settles O22 by what `exec` answers on each side of the duty. -/
theorem wellFormedInstructionsComplete : Obligations.WellFormedInstructionsComplete := by
  intro i s hr
  refine ⟨fun h => ?_, exec_of_not_wf s⟩
  obtain ⟨u, he, hrun, hfault, hpc⟩ := exec_of_wf s (by simp [hr]) h
  exact ⟨_, he, hrun, hfault, by rw [State.advance_pc, hpc]⟩

/-! ### Reset, start, and the end of a run -/

/-- No number of steps changes a core that is not `Running` (rule R80). -/
theorem run_of_not_running {s : State} (h : s.runState ≠ .running) (k : Nat) :
    Sys2Proof.core.run k s = .next s := by
  induction k with
  | zero => exact run_zero s
  | succ k ih => rw [run_succ (step_of_not_running h), ih]

/-- A run that is over is neither `Running`, so no step changes it, nor `Idle`, so no load or start does. -/
theorem RunOver.not_running_not_idle {s : State} (h : RunOver s) : s.runState ≠ .running ∧ s.runState ≠ .idle := by
  rcases h with h | h <;> simp [h]

/-- Settles O46 by what a core does that is neither `Running` nor `Idle`. -/
theorem onlyResetLeavesTheEnd : Obligations.OnlyResetLeavesTheEnd := by
  refine ⟨fun _ => rfl, fun c hover => ?_⟩
  obtain ⟨hrun, hidle⟩ := hover.not_running_not_idle
  refine ⟨fun k t ht => ?_, fun op hop => Session.apply_core_of_not_idle hidle hop⟩
  cases ht.symm.trans (run_of_not_running hrun k)
  rfl

/-- Settles O40: the values of the reset state, where every cell of the empty memory reads zero. -/
theorem resetValues : Obligations.ResetValues := by
  intro s
  refine ⟨fun i hi => Vector.getElem_replicate hi, rfl, fun addr haddr => ?_, rfl, rfl, rfl, rfl⟩
  exact memRead_of_lt haddr State.reset

/-- Settles O43: one case of start for each side of `Idle`. -/
theorem startOnlyFromIdle : Obligations.StartOnlyFromIdle :=
  fun _ => ⟨applyStart_of_idle, applyStart_of_not_idle⟩

end Machine

end Sys2Proof

/-! ## Proofs about the decoder and the encoder as inverses (30_encoding.md) -/

namespace Sys2Proof

/-- The length an instruction's opcode byte gives is the number of its bytes (rule R51). -/
theorem opLength_of_decode {w : Window} {i : Instr} (h : decode w = .ok i) :
    opLength w.opcode = (encode i).length := by
  rw [opcode_eq_of_decode h, length_encode]

/-- The window at the front of an encoding decodes to the instruction; only the fetched bytes it has no operand for come
from what stands behind it (rules R50, R54). -/
theorem decode_ofBytes_encode (i : Instr) (p q : Byte) (rest : List Byte) :
    ∃ w, Window.ofBytes (encode i ++ p :: q :: rest) = some w ∧ decode w = .ok i := by
  cases i with
  | hlt => exact ⟨_, rfl, decode_hlt p q⟩
  | ldi a b => exact ⟨_, rfl, decode_ldi a b⟩
  | prn a => exact ⟨_, rfl, decode_prn a p⟩
  | mul a b => exact ⟨_, rfl, decode_mul a b⟩

/-- Settles O5 by the window at the front, one case for each instruction. -/
theorem decodeOfEncodedInstruction : Obligations.DecodeOfEncodedInstruction := by
  intro i p q rest
  obtain ⟨w, hw, hd⟩ := decode_ofBytes_encode i p q rest
  exact ⟨w, hw, hd, opLength_of_decode hd⟩

/-- A decoded window begins with its instruction's encoding. -/
theorem take_bytes_of_decode {w : Window} {i : Instr} (h : decode w = .ok i) :
    w.bytes.take (encode i).length = encode i := by
  obtain ⟨o, a, b⟩ := w
  obtain rfl : o = i.opcode := opcode_eq_of_decode h
  cases i with
  | hlt => rfl
  | ldi c d => cases (decode_ldi a b).symm.trans h; rfl
  | prn c => cases (decode_prn a b).symm.trans h; rfl
  | mul c d => cases (decode_mul a b).symm.trans h; rfl

/-- A window that begins with an encoding decodes to the instruction: the bytes behind play no part. -/
theorem decode_of_take_bytes {w : Window} {i : Instr} (h : w.bytes.take (encode i).length = encode i) :
    decode w = .ok i := by
  obtain ⟨o, a, b⟩ := w
  cases i <;> cases h <;> rfl

/-- Settles O6: the length of the opcode byte is that of the encoding, and a window is the encoding's exactly when it
decodes to the instruction. -/
theorem encodeOfDecodedWindow : Obligations.EncodeOfDecodedWindow := by
  intro w i h
  rw [opLength_of_decode h]
  exact ⟨(take_bytes_of_decode h).symm, fun _ => decode_of_take_bytes⟩

/-- Settles O1: the four rows of the table at written-out operands, and a byte in none of them. -/
theorem decodesTheTableWords : Obligations.DecodesTheTableWords :=
  ⟨decode_hlt _ _, decode_ldi _ _, decode_prn _ _, decode_mul _ _, Machine.decode_of_not_recognised (by decide) _ _⟩

end Sys2Proof

/-! ## Proofs about the invariant (10_state.md sections 5 and 6, 60_exceptions.md section 1, 70_reset_and_hazards.md
section 8): it holds at reset, and every step and every request of the host keeps it -/

namespace Sys2Proof.Machine

/-- A step of a running core latches a cause and does nothing else, or it completes and moves pc, from at most 253, by
the opcode's decoded length (rules R78, R128). -/
theorem StepCase.faults_or_completes {s t : State} (h : StepCase s t) (hr : s.runState = .running) :
    (∃ f, t = s.latchFault f ∧ StepRaises s f) ∨
      (t.runState ≠ .faulted ∧ s.pc.toNat ≤ 253 ∧
        t.pc.toNat = s.pc.toNat + opLength (s.mem.peek s.pc.toNat)) := by
  rcases h.pc_cases hr with ⟨hf, _⟩ | ⟨hn, hpc, hmove⟩
  · exact .inl (h.eq_latchFault hr hf)
  · exact .inr ⟨hn, hpc, by rw [hmove, State.advance_opLength_toNat hpc]⟩

/-- Up to pc 257 the causes a step can raise are the listed ones. -/
theorem StepRaises.latchFits {s : State} {f : Fault} (h : StepRaises s f) (hpc : s.pc.toNat ≤ 257) : LatchFits s f := by
  rcases h with ⟨hge, rfl⟩ | h
  · simp only [LatchFits]
    omega
  · exact h

/-- What a step appends to the trace is at most one event, and one the core can emit (rule R20). -/
theorem StepEmits.fits {s : State} {ev : List Event} (h : StepEmits s ev) :
    ev.length ≤ 1 ∧ ∀ e ∈ ev, EventFits s.mem e := by
  rcases h with rfl | ⟨i, hi, _, _, rfl⟩ | ⟨hpc, ho, rfl⟩
  · exact ⟨Nat.zero_le 1, nofun⟩
  · exact ⟨Nat.le_refl 1, List.forall_mem_singleton.2 hi⟩
  · exact ⟨Nat.le_refl 1, List.forall_mem_singleton.2 ⟨hpc, rfl, ho⟩⟩

namespace CoreInv
variable {s t : State}

theorem fault_eq_none (h : CoreInv s) (hs : s.runState ≠ .faulted) : s.fault = none :=
  h.latchIffFaulted.2 hs

/-- Taking a fault that fits pc and the bytes there keeps the invariant. -/
theorem latchFault (h : CoreInv s) {f : Fault} (hf : LatchFits s f) : CoreInv (s.latchFault f) where
  memCanonical := h.memCanonical
  pcBound := h.pcBound
  latchIffFaulted := by simp
  latchFits := by
    intro g hg
    cases hg
    cases f <;> exact hf
  idleFresh := nofun
  haltedAfterHlt := nofun
  traceBound := h.traceBound
  traceFits := h.traceFits

/-- A step that completes keeps the invariant: pc moves by at least one, which pays for the event the step may append
(rule R164). -/
theorem complete (h : CoreInv s) (hc : StepCase s t) (hr : s.runState = .running) (hn : t.runState ≠ .faulted)
    (hpc : s.pc.toNat ≤ 253) (hmove : t.pc.toNat = s.pc.toNat + opLength (s.mem.peek s.pc.toNat)) : CoreInv t := by
  obtain ⟨ev, htrace, hemits, _⟩ := hc.trace_append
  obtain ⟨hlen, hfits⟩ := hemits.fits
  have hlatch : LatchAgrees t := .step s t h.latchIffFaulted hc
  have hpos := opLength_pos (s.mem.peek s.pc.toNat)
  have hle := opLength_le (s.mem.peek s.pc.toNat)
  obtain ⟨hbound, _⟩ := h.traceBound
  exact {
    memCanonical := hc.mem_eq ▸ h.memCanonical
    pcBound := by omega
    latchIffFaulted := hlatch
    latchFits := fun f hf => by rw [hlatch.2 hn] at hf; cases hf
    idleFresh := fun hi => absurd hi (step_not_idle hc.step_eq (by simp [hr]))
    haltedAfterHlt := fun hh => by
      rcases hc.transitions with ⟨hs, _⟩ | ⟨_, ht, _⟩ | ⟨_, _, _, ho, _⟩ | ⟨_, ht, _⟩
      · exact absurd hr hs
      · cases hh.symm.trans ht
      · have hone : t.pc.toNat = s.pc.toNat + 1 := by rw [hmove, ho]; rfl
        refine ⟨by omega, by omega, ?_⟩
        rw [hone, Nat.add_sub_cancel, hc.mem_eq, ho]
      · exact absurd ht hn
    traceBound := by
      rw [htrace, List.length_append]
      omega
    traceFits := by
      rw [htrace, hc.mem_eq]
      exact List.forall_mem_append.2 ⟨h.traceFits, hfits⟩ }

/-- Every case of a step keeps the invariant. -/
theorem step (h : CoreInv s) (hc : StepCase s t) : CoreInv t := by
  by_cases hr : s.runState = .running
  · rcases hc.faults_or_completes hr with ⟨f, rfl, hf⟩ | ⟨hn, hpc, hmove⟩
    · exact h.latchFault (hf.latchFits h.pcBound)
    · exact h.complete hc hr hn hpc hmove
  · cases hc.step_eq.symm.trans (step_of_not_running hr)
    exact h

end CoreInv

/-- Settles O48 by the cases of a step. -/
theorem stepKeepsInvariant : Obligations.StepKeepsInvariant :=
  fun _ _ h hs => h.step (step_inv hs)

/-- Settles O47: nothing is latched, emitted or moved at reset. -/
theorem resetMeetsInvariant : Obligations.ResetMeetsInvariant where
  memCanonical := State.reset_mem_wf
  pcBound := Nat.zero_le 257
  latchIffFaulted := by simp [State.reset]
  latchFits := nofun
  idleFresh := fun _ => ⟨rfl, rfl, rfl⟩
  haltedAfterHlt := nofun
  traceBound := ⟨Nat.zero_le _, Nat.zero_le _⟩
  traceFits := nofun

namespace CoreInv
variable {s : State}

/-- Before start memory may change: nothing was latched or emitted that depends on it (rule R153). -/
theorem setMem_of_idle (h : CoreInv s) (hi : s.runState = .idle) {m : Memory} (hm : m.wf = true) :
    CoreInv (s.setMem m) := by
  obtain ⟨hpc, hregs, htrace⟩ := h.idleFresh hi
  have hnone : s.fault = none := h.fault_eq_none (by simp [hi])
  exact {
    memCanonical := hm
    pcBound := h.pcBound
    latchIffFaulted := h.latchIffFaulted
    latchFits := by simp [hnone]
    idleFresh := h.idleFresh
    haltedAfterHlt := by simp [hi]
    traceBound := h.traceBound
    traceFits := by simp [htrace] }

/-- A load request keeps the invariant. -/
theorem applyLoad (h : CoreInv s) (img : List Byte) : CoreInv (applyLoad img s).2 := by
  rcases applyLoad_cases img s h.memCanonical with ⟨_, he⟩ | ⟨_, _, he⟩ | ⟨hi, _, m, he, hwf, _⟩ <;> rw [he]
  · exact h
  · exact h
  · exact h.setMem_of_idle hi hwf

/-- A start request keeps the invariant. -/
theorem applyStart (h : CoreInv s) : CoreInv (applyStart s) := by
  by_cases hi : s.runState = .idle
  case neg => rwa [applyStart_of_not_idle hi]
  have hnone : s.fault = none := h.fault_eq_none (by simp [hi])
  rw [applyStart_of_idle hi]
  exact {
    memCanonical := h.memCanonical
    pcBound := h.pcBound
    latchIffFaulted := by simp [hnone]
    latchFits := by simp [hnone]
    idleFresh := nofun
    haltedAfterHlt := nofun
    traceBound := h.traceBound
    traceFits := h.traceFits }

end CoreInv

/-- Settles O49 by what a request of the host does to the core. -/
theorem hostKeepsInvariant : Obligations.HostKeepsInvariant := by
  intro c op h
  rcases c.apply_core_cases op with he | ⟨_, he⟩ | ⟨img, _, he⟩ | ⟨_, he⟩ <;> rw [he]
  · exact h
  · exact resetMeetsInvariant
  · exact h.applyLoad img
  · exact h.applyStart

/-- Settles O50 by induction over the requests and steps that lead to the session. -/
theorem reachableSessionsMeetInvariant : Obligations.ReachableSessionsMeetInvariant :=
  fun _ hc => hc.core_induction (P := CoreInv) resetMeetsInvariant (fun img _ h => h.applyLoad img)
    (fun _ h => h.applyStart) (fun _ _ h hs => h.step hs)

end Sys2Proof.Machine

/-! ## Proofs about one step: it always answers, what it reads, the end of memory (40_execution_loop.md, 20_memory.md
section 6, 70_reset_and_hazards.md section 6) -/

namespace Sys2Proof.Machine

/-- Settles O7 by the step at fetched bytes that decode. -/
theorem stepRunsDecodedInstruction : Obligations.StepRunsDecodedInstruction :=
  fun _ _ _ _ _ hf hd => hf.step_eq_exec hd

/-- Settles O11: each of the three run states differs from `Running`. -/
theorem nothingHappensUnlessRunning : Obligations.NothingHappensUnlessRunning := by
  rintro s (h | h | h) <;> exact step_of_not_running (by simp [h])

/-! ### Every step and every instruction answers a next state -/

theorem complete_next (len : Nat) (s : State) (r : Except Fault State) : ∃ t, complete len s r = .next t := by
  cases r with
  | ok t => exact ⟨_, complete_ok len s t⟩
  | error f => exact ⟨_, complete_error len s f⟩

theorem exec_next (i : Instr) (s : State) : ∃ t, exec i s = .next t := by
  cases i with
  | hlt => exact complete_next _ s (handleHlt s)
  | ldi a b => exact complete_next _ s (handleLdi a b s)
  | prn a => exact complete_next _ s (handlePrn a s)
  | mul a b => exact complete_next _ s (handleMul a b s)

/-- Settles O12 by the cases of a step, and by what a handler's answer or cause is completed to. -/
theorem nothingIsRefused : Obligations.NothingIsRefused :=
  ⟨fun s => (step_cases s).imp fun _ h => h.1, exec_next⟩

/-! ### A step reads three cells (rules R39, R54) -/

/-- The fetch is the same from any memory that agrees on the three cells at pc. -/
theorem fetch_setMem {s : State} {m : Memory}
    (hm : ∀ k, k ≤ 2 → m.peek (s.pc.toNat + k) = s.mem.peek (s.pc.toNat + k)) : fetch (s.setMem m) = fetch s := by
  rcases Nat.lt_or_ge s.pc.toNat 254 with hpc | hpc
  · have h0 : m.peek s.pc.toNat = s.mem.peek s.pc.toNat := hm 0 (by decide)
    have h1 := hm 1 (by decide)
    have h2 := hm 2 (by decide)
    rw [fetch_of_le (Nat.le_of_lt_succ hpc), fetch_of_le (s := s.setMem m) (Nat.le_of_lt_succ hpc)]
    simp only [State.setMem_pc, State.setMem_mem, h0, h1, h2]
  · rw [fetch_of_ge hpc, fetch_of_ge (s := s.setMem m) hpc, State.setMem_pc]

theorem step_of_fetch {s : State} (hr : s.runState = .running) {w : Window} (hf : fetch s = .ok w) {i : Instr}
    (hd : decode w = .ok i) : step s = exec i s := by
  simp only [step, hr, hf, hd]

/-- No instruction reads or writes memory once it is decoded. -/
theorem exec_setMem {i : Instr} {s t : State} (h : exec i s = .next t) (m : Memory) :
    exec i (s.setMem m) = .next (t.setMem m) := by
  cases i with
  | hlt =>
    cases h.symm.trans (execHlt_eq s)
    exact execHlt_eq (s.setMem m)
  | ldi a b =>
    rcases Nat.lt_or_ge a.toNat 8 with ha | ha
    · cases h.symm.trans (execLdi_of_lt s b ha)
      exact execLdi_of_lt (s.setMem m) b ha
    · cases h.symm.trans (execLdi_of_ge s b ha)
      exact execLdi_of_ge (s.setMem m) b ha
  | prn a =>
    rcases Nat.lt_or_ge a.toNat 8 with ha | ha
    · cases h.symm.trans (execPrn_of_lt s ha)
      exact execPrn_of_lt (s.setMem m) ha
    · cases h.symm.trans (execPrn_of_ge s ha)
      exact execPrn_of_ge (s.setMem m) ha
  | mul a b =>
    rcases Nat.lt_or_ge a.toNat 8 with ha | ha
    · rcases Nat.lt_or_ge b.toNat 8 with hb | hb
      · cases h.symm.trans (execMul_of_lt s ha hb)
        exact execMul_of_lt (s.setMem m) ha hb
      · cases h.symm.trans (execMul_src_ge s ha hb)
        exact execMul_src_ge (s.setMem m) ha hb
    · cases h.symm.trans (execMul_dest_ge s b ha)
      exact execMul_dest_ge (s.setMem m) b ha

/-- Settles O14: the fetch is the same, and what follows it does not look at memory. -/
theorem stepReadsOnlyThreeCells : Obligations.StepReadsOnlyThreeCells := by
  intro s t m h hm
  change step (s.setMem m) = .next (t.setMem m)
  have hfetch := fetch_setMem hm
  by_cases hr : s.runState = .running
  case neg =>
    cases h.symm.trans (step_of_not_running hr)
    exact step_of_not_running (s := s.setMem m) hr
  cases hf : fetch s with
  | error f =>
    cases h.symm.trans (step_of_fetch_error hr hf)
    exact step_of_fetch_error (s := s.setMem m) hr (hfetch.trans hf)
  | ok w =>
    cases hd : decode w with
    | ok i =>
      rw [step_of_fetch hr hf hd] at h
      rw [step_of_fetch (s := s.setMem m) hr (hfetch.trans hf) hd]
      exact exec_setMem h m
    | error e =>
      cases e with
      | unsupportedOpcode o =>
        cases h.symm.trans (step_of_reject hr hf hd)
        exact step_of_reject (s := s.setMem m) hr (hfetch.trans hf) hd

/-! ### The end of memory (rule R158) -/

/-- No decoded length makes the advance from 253 wrap. -/
theorem advance_pc_of_last_place {u : State} (hpc : u.pc.toNat = 253) {n : Nat} (hn : n ≤ 4) :
    (u.advance n).pc.toNat = 253 + n := by
  rw [State.advance_eq_ofNat, BitVec.toNat_ofNat, hpc]
  exact Nat.mod_eq_of_lt (by omega)

/-- A step at 253 that moves past at most three bytes leaves pc at 256 or below, where the next fetch names
address 256. -/
theorem next_step_faults {s u : State} {n : Nat} (hs : step s = .next (u.advance n)) (hr : u.runState = .running)
    (hpc : u.pc.toNat = 253) (hpos : 1 ≤ n) (hle : n ≤ 3) :
    ∃ t, step s = .next t ∧ t.runState = .running ∧ t.pc = BitVec.ofNat 9 (253 + n) ∧
      step t = .next (t.latchFault (.outOfBoundsAccess 256)) := by
  have hto := advance_pc_of_last_place hpc (show n ≤ 4 by omega)
  have hfault := step_fetchFault (s := u.advance n) hr (by omega)
  rw [hto, Nat.max_eq_right (by omega)] at hfault
  exact ⟨_, hs, hr, by rw [← hto, BitVec.ofNat_toNat, BitVec.setWidth_eq], hfault⟩

/-- Settles O15: what each instruction does at 253 by its effect, and the fetch fault of the step after it by where pc
was left. -/
theorem endOfMemoryHazard : Obligations.EndOfMemoryHazard := by
  refine ⟨fun s hr hpc => step_at_last_two_cells hr hpc, fun s o a b hf hpc => ⟨?_, ?_, ?_, ?_, ?_, ?_⟩⟩
  · rintro rfl
    have hnext : s.pc + 1#9 = 254#9 := by rw [show s.pc = 253#9 from BitVec.eq_of_toNat_eq hpc]; rfl
    rw [hf.step_eq_exec (decode_hlt a b), ← hnext]
    exact execHlt_eq s
  · rintro (rfl | rfl) ha hb
    · exact next_step_faults ((hf.step_eq_exec (decode_ldi a b)).trans (execLdi_of_lt s b ha)) hf.1 hpc
        (by decide) (by decide)
    · exact next_step_faults ((hf.step_eq_exec (decode_mul a b)).trans (execMul_of_lt s ha (hb rfl))) hf.1 hpc
        (by decide) (by decide)
  · rintro rfl ha
    exact next_step_faults ((hf.step_eq_exec (decode_prn a b)).trans (execPrn_of_lt s ha)) hf.1 hpc
      (by decide) (by decide)
  · intro ho
    have hmove := advance_pc_of_last_place (u := s.emit (.diag s.pc o)) hpc (opLength_le o)
    rw [opLength_eq] at hmove
    refine ⟨_, hf.step_skip ho, hf.1, ?_, step_fetchFault hf.1 ?_⟩ <;> rw [opLength_eq, hmove] <;> omega
  · exact fun ho ha => step_of_stepRaises hf.1 (hf.stepRaises_invalidRegisterIndex_iff.2 (.inl ⟨ho, ha, rfl⟩))
  · exact fun ho ha hb => step_of_stepRaises hf.1 (hf.stepRaises_invalidRegisterIndex_iff.2 (.inr ⟨ho, ha, hb, rfl⟩))

end Sys2Proof.Machine

/-! ## Proofs about exec: its handlers, its frames, the ALU's contract (40_execution_loop.md, 41_load_immediate.md,
42_output.md, 43_alu.md, 44_halt.md) -/

namespace Sys2Proof.Machine

/-! ### The handlers and the advance (rules R76, R78) -/

/-- What a handler may answer from `s`: a state with the same pc, memory and latch, or the fault of a register operand
(rules R76, R122). -/
def HandlerAnswers (s : State) (r : Except Fault State) : Prop :=
  (∃ t, r = .ok t ∧ t.pc = s.pc ∧ t.mem = s.mem ∧ t.fault = s.fault) ∨ ∃ k, r = .error (.invalidRegisterIndex k)

section handlers
variable (a b : Byte) (s : State)

theorem handleHlt_answers : HandlerAnswers s (handleHlt s) :=
  .inl ⟨_, rfl, rfl, rfl, rfl⟩

theorem handleLdi_answers : HandlerAnswers s (handleLdi a b s) := by
  rcases Nat.lt_or_ge a.toNat 8 with ha | ha
  · exact .inl ⟨_, regWrite_of_lt ha _ s, rfl, rfl, rfl⟩
  · exact .inr ⟨_, regWrite_of_ge ha _ s⟩

theorem handlePrn_answers : HandlerAnswers s (handlePrn a s) := by
  rcases Nat.lt_or_ge a.toNat 8 with ha | ha
  · exact .inl ⟨s.emit (.print a s.regs[a.toNat]), by simp only [handlePrn, regRead_of_lt ha], rfl, rfl, rfl⟩
  · exact .inr ⟨a, by simp only [handlePrn, regRead_of_ge ha]⟩

theorem handleMul_answers : HandlerAnswers s (handleMul a b s) := by
  rcases Nat.lt_or_ge a.toNat 8 with ha | ha
  · rcases Nat.lt_or_ge b.toNat 8 with hb | hb
    · exact .inl ⟨_, aluBinary_of_lt _ ha hb s, rfl, rfl, rfl⟩
    · exact .inr ⟨_, aluBinary_src_ge _ ha hb s⟩
  · exact .inr ⟨_, aluBinary_dest_ge _ ha b s⟩

end handlers

/-- What `exec` makes of a handler's answer: the advance by the instruction's bytes, or the fault entry. -/
theorem exec_of_handlerAnswers {i : Instr} {s : State} {r : Except Fault State}
    (he : exec i s = complete (encode i).length s r) (hr : HandlerAnswers s r) :
    (∀ t, r = .ok t → t.pc = s.pc ∧ t.mem = s.mem ∧ t.fault = s.fault ∧
      exec i s = .next (t.advance (encode i).length)) ∧
    ∀ f, r = .error f → (∃ k, f = .invalidRegisterIndex k) ∧ exec i s = .next (s.latchFault f) := by
  rcases hr with ⟨u, rfl, hpc, hmem, hfault⟩ | ⟨k, rfl⟩
  · refine ⟨fun t ht => ?_, nofun⟩
    cases ht
    exact ⟨hpc, hmem, hfault, he⟩
  · refine ⟨nofun, fun f hf => ?_⟩
    cases hf
    exact ⟨⟨k, rfl⟩, he⟩

/-- Settles O55, one handler for each instruction. -/
theorem execIsHandlerThenAdvance : Obligations.ExecIsHandlerThenAdvance := by
  intro a b s
  simp only [List.forall_mem_cons]
  refine ⟨?_, ?_, ?_, ?_, nofun⟩
  · exact exec_of_handlerAnswers (i := .hlt) rfl (handleHlt_answers s)
  · exact exec_of_handlerAnswers (i := .ldi a b) rfl (handleLdi_answers a b s)
  · exact exec_of_handlerAnswers (i := .prn a) rfl (handlePrn_answers a s)
  · exact exec_of_handlerAnswers (i := .mul a b) rfl (handleMul_answers a b s)

/-! ### Frames -/

/-- A register write leaves the other registers. -/
theorem State.setReg_getElem_of_ne (s : State) {i j : Nat} (v : Byte) (hi : i < 8) (hj : j < 8) (hne : j ≠ i) :
    (s.setReg i v hi).regs[j] = s.regs[j] :=
  Vector.getElem_set_ne hi hj hne.symm

/-- Settles O20 by the cases of each instruction's operands. -/
theorem registerWritersFrame : Obligations.RegisterWritersFrame := by
  refine fun a b s t => ⟨fun h => ?_, fun h => ?_⟩
  · rcases Nat.lt_or_ge a.toNat 8 with ha | ha
    · cases h.symm.trans (execLdi_of_lt s b ha)
      exact ⟨fun j hj hne => s.setReg_getElem_of_ne _ ha hj hne, fun _ => rfl, rfl, .inl ⟨ha, rfl, rfl⟩⟩
    · cases h.symm.trans (execLdi_of_ge s b ha)
      exact ⟨fun _ _ _ => rfl, fun _ => rfl, rfl, .inr ⟨ha, rfl, rfl, rfl⟩⟩
  · rcases Nat.lt_or_ge a.toNat 8 with ha | ha
    · rcases Nat.lt_or_ge b.toNat 8 with hb | hb
      · cases h.symm.trans (execMul_of_lt s ha hb)
        exact ⟨fun j hj hne => s.setReg_getElem_of_ne _ ha hj hne, fun _ => rfl, rfl, .inl ⟨ha, hb, rfl, rfl⟩⟩
      · cases h.symm.trans (execMul_src_ge s ha hb)
        exact ⟨fun _ _ _ => rfl, fun _ => rfl, rfl, .inr ⟨.inr hb, rfl, rfl, rfl⟩⟩
    · cases h.symm.trans (execMul_dest_ge s b ha)
      exact ⟨fun _ _ _ => rfl, fun _ => rfl, rfl, .inr ⟨.inl ha, rfl, rfl, rfl⟩⟩

/-- Settles O21 by the two cases of PRN's operand and the one of HLT. -/
theorem prnAndHltFrame : Obligations.PrnAndHltFrame := by
  refine ⟨fun a s t h => ?_, fun s t h => ?_⟩
  · rcases Nat.lt_or_ge a.toNat 8 with ha | ha
    · cases h.symm.trans (execPrn_of_lt s ha)
      exact ⟨rfl, fun _ => rfl, .inl ⟨rfl, rfl, List.length_append⟩⟩
    · cases h.symm.trans (execPrn_of_ge s ha)
      exact ⟨rfl, fun _ => rfl, .inr ⟨ha, rfl, rfl, rfl⟩⟩
  · cases h.symm.trans (execHlt_eq s)
    exact ⟨rfl, fun _ => rfl, rfl, rfl⟩

/-! ### The ALU (rules R100, R103) -/

/-- Settles O24 by the outcomes of the binary operation that ADD and MUL share. -/
theorem aluContract : Obligations.AluContract := by
  refine fun d s st => ⟨fun hd hs => ?_, ?_, fun _ => rfl⟩
  · exact ⟨aluBinary_of_lt _ hd hs st, aluBinary_of_lt _ hd hs st⟩
  · rintro op (rfl | rfl) <;> exact ⟨fun hd => aluBinary_dest_ge _ hd s st, fun hd hs => aluBinary_src_ge _ hd hs st⟩

/-- Settles O27: the selector's fault is taken like any other, and no step raises it (rule R126's order). -/
theorem aluSelectorFaultIsUnreachable : Obligations.AluSelectorFaultIsUnreachable := by
  obtain ⟨_, _, neverRaised⟩ := faultPriority
  exact ⟨fun _ len _ _ st => complete_error len st _, fun s t op h ht => (neverRaised s t op h ht).trans ht⟩

end Sys2Proof.Machine

/-! ## Proofs about the fault codes and the latch (60_exceptions.md section 1, 10_state.md section 1) -/

namespace Sys2Proof.Machine

/-- Settles O36 by the definition of the codes. -/
theorem faultCodes : Obligations.FaultCodes :=
  ⟨fun _ => rfl, fun _ => rfl, fun _ => rfl⟩

/-- The state with another latch. -/
def State.withFault (s : State) (f : Option Fault) : State :=
  { s with fault := f }

/-- With any other latch the same case of a step applies, and only what stays latched differs. -/
theorem StepCase.withFault {s t : State} (h : StepCase s t) (hr : s.runState = .running) (f : Option Fault) :
    StepCase (s.withFault f) (t.withFault (if t.runState = .faulted then t.fault else f)) := by
  have completed {u : State} (hu : u.runState ≠ .faulted) (hc : StepCase (s.withFault f) (u.withFault f)) :
      StepCase (s.withFault f) (u.withFault (if u.runState = .faulted then u.fault else f)) := by
    rwa [if_neg hu]
  have running : s.runState ≠ .faulted := by simp [hr]
  cases h with
  | idle hn => exact absurd hr hn
  | fetchFault _ hpc => exact .fetchFault (s := s.withFault f) hr hpc
  | hlt _ hpc ho => exact completed nofun (.hlt (s := s.withFault f) hr hpc ho)
  | ldi _ hpc ho ha => exact completed running (.ldi (s := s.withFault f) hr hpc ho ha)
  | prn _ hpc ho ha => exact completed running (.prn (s := s.withFault f) hr hpc ho ha)
  | mul _ hpc ho ha hb => exact completed running (.mul (s := s.withFault f) hr hpc ho ha hb)
  | operandAFault _ hpc ho ha => exact .operandAFault (s := s.withFault f) hr hpc ho ha
  | operandBFault _ hpc ho ha hb => exact .operandBFault (s := s.withFault f) hr hpc ho ha hb
  | skip _ hpc h1 h2 h3 h4 => exact completed running (.skip (s := s.withFault f) hr hpc h1 h2 h3 h4)

/-- Settles O38 by the cases of a step. -/
theorem latchIsNeverRead : Obligations.LatchIsNeverRead :=
  fun _ _ f hr h => ((step_inv h).withFault hr f).step_eq

end Sys2Proof.Machine

/-! ## Proofs about loading and booting (70_reset_and_hazards.md sections 2 and 4) -/

namespace Sys2Proof.Machine

section loading
variable {s : State} {img : List Byte} (hi : s.runState = .idle)
include hi

/-- An image that fits is stored from address 0. -/
theorem applyLoad_of_fits (hs : s.mem.wf = true) (hl : img.length ≤ 256) :
    ∃ m, applyLoad img s = (.accepted, s.setMem m) ∧ StandsAt m 0 img ∧
      ∀ k, img.length ≤ k → m.peek k = s.mem.peek k := by
  rcases applyLoad_cases img s hs with ⟨hn, _⟩ | ⟨_, hgt, _⟩ | ⟨_, _, m, he, _, hin, hout⟩
  · exact absurd hi hn
  · omega
  · exact ⟨m, he, fun j hj => by rw [Nat.zero_add]; exact hin j hj, hout⟩

/-- A longer image is refused whole. -/
theorem applyLoad_of_too_long (hl : 256 < img.length) : applyLoad img s = (.refused, s) := by
  rw [applyLoad, if_neg (not_not.2 hi), if_pos hl]

end loading

/-- After a refused load the session stands still under every request but reset (rules R125, R153). -/
theorem Session.apply_of_refused {c : Session} (hp : c.phase = .refused) {op : HostOp} (hop : op ≠ .reset) :
    c.apply op = c := by
  cases op with
  | reset => exact absurd rfl hop
  | load img => simp only [Session.apply, hp]
  | start => simp only [Session.apply, hp]

/-- Settles O41 by the two lengths of an image. -/
theorem loadStoresImage : Obligations.LoadStoresImage := by
  refine fun img s hs hi => ⟨fun hl => ?_, fun hl => ?_⟩
  · obtain ⟨m, he, hin, hout⟩ := applyLoad_of_fits hi hs hl
    exact ⟨_, he, rfl, hin, hout⟩
  · have hload : applyLoad img s = (.refused, s) := applyLoad_of_too_long hi hl
    have hsession : Session.apply ⟨s, .fresh⟩ (.load img) = ⟨s, .refused⟩ := by simp only [Session.apply, hload]
    have hboot : boot img = none := by simp only [boot, applyLoad_of_too_long (s := State.reset) rfl hl]
    rw [hsession]
    exact ⟨hload, hboot, rfl, fun op hop => Session.apply_of_refused rfl hop⟩

/-! ### At most one load for each reset (rule R153, decision D14) -/

/-- A load request would change nothing: the host has used up its load, or the core has left `Idle`. -/
def LoadSpent (c : Session) : Prop :=
  c.phase ≠ .fresh ∨ c.core.runState ≠ .idle

theorem LoadSpent.apply_load {c : Session} (h : LoadSpent c) (img : List Byte) : c.apply (.load img) = c := by
  obtain ⟨s, p⟩ := c
  cases p with
  | loaded => rfl
  | refused => rfl
  | fresh =>
    have hn : s.runState ≠ .idle := h.resolve_left (not_not.2 rfl)
    simp only [Session.apply, applyLoad_of_not_idle hn]

/-- The first load request to an `Idle` core is carried out and used up, accepted or refused. -/
theorem Session.apply_load_of_fresh {c : Session} (hi : c.core.runState = .idle) (hp : c.phase = .fresh)
    (img : List Byte) :
    (c.apply (.load img)).core = (applyLoad img c.core).2 ∧ (c.apply (.load img)).phase ≠ .fresh := by
  have hreply := applyLoad_reply_of_idle hi img
  rcases hl : applyLoad img c.core with ⟨reply, t⟩
  rw [hl] at hreply
  cases reply with
  | accepted => simp [Session.apply, hp, hl]
  | refused => simp [Session.apply, hp, hl]
  | ignored => exact absurd rfl hreply

/-- After a load request the load is spent, whether it was the first or not. -/
theorem loadSpent_apply_load (c : Session) (img : List Byte) : LoadSpent (c.apply (.load img)) := by
  by_cases h : LoadSpent c
  · rwa [h.apply_load]
  · obtain ⟨hp, hi⟩ := not_or.1 h
    exact .inl (c.apply_load_of_fresh (not_not.1 hi) (not_not.1 hp) img).2

theorem LoadSpent.apply {c : Session} (h : LoadSpent c) {op : HostOp} (hop : op ≠ .reset) : LoadSpent (c.apply op) := by
  cases op with
  | reset => exact absurd rfl hop
  | load img => exact loadSpent_apply_load c img
  | start =>
    rcases h with hp | hi
    · cases hc : c.phase with
      | fresh => exact absurd hc hp
      | loaded => exact .inl (by simp [Session.apply, hc])
      | refused => exact .inl (by simp [Session.apply, hc])
    · refine .inr ?_
      rwa [Session.apply_core_of_not_idle hi hop]

theorem LoadSpent.step {c : Session} (h : LoadSpent c) {t : State} (hs : Machine.step c.core = .next t) :
    LoadSpent { c with core := t } :=
  h.imp id (step_not_idle hs)

/-- A spent load stays spent until the next reset. -/
theorem WithoutReset.loadSpent {c c' : Session} (h : WithoutReset c c') (hc : LoadSpent c) : LoadSpent c' := by
  induction h with
  | refl => exact hc
  | host d op _ hop ih => exact ih.apply hop
  | step d t _ hs ih => exact ih.step hs

/-- Settles O42: the first load by what `Session` does with the core's reply, every later one by `LoadSpent`. -/
theorem loadOnlyWhileIdle : Obligations.LoadOnlyWhileIdle := by
  refine ⟨fun img s hn => applyLoad_of_not_idle hn img, fun img s => ?_,
    fun c img hi hp => c.apply_load_of_fresh hi hp img,
    fun c c' img img' h => (h.loadSpent (loadSpent_apply_load c img)).apply_load img'⟩
  obtain ⟨m, hm⟩ := applyLoad_eq_setMem img s
  rw [hm]
  rfl

/-- Settles O44: the load at reset stores the image in the zero memory, and start leaves it there. -/
theorem bootStandsAtZero : Obligations.BootStandsAtZero := by
  intro img hl
  obtain ⟨m, he, hin, hout⟩ := applyLoad_of_fits (s := State.reset) rfl State.reset_mem_wf hl
  have hboot : boot img = some (applyStart (State.reset.setMem m)) := by simp only [boot, he]
  exact ⟨_, hboot, rfl, hin, hout⟩

end Sys2Proof.Machine

/-! ## Proofs about whole runs (20_memory.md section 7, 40_execution_loop.md section 9, 70_reset_and_hazards.md
sections 4 to 6 and 8) -/

namespace Sys2Proof.Machine

/-- What holds of a state and is kept by every step holds after any number of steps. -/
theorem run_induction {P : State → Prop} (hstep : ∀ u v, P u → StepCase u v → P v) {k : Nat} {s t : State} (hs : P s)
    (h : Sys2Proof.core.run k s = .next t) : P t := by
  induction k generalizing s with
  | zero =>
    cases h
    exact hs
  | succ k ih =>
    obtain ⟨u, hu, hc⟩ := step_cases s
    rw [run_succ hu] at h
    exact ih (hstep s u hs hc) h

theorem run_mem_eq {k : Nat} {s t : State} (h : Sys2Proof.core.run k s = .next t) : t.mem = s.mem :=
  run_induction (P := fun u => u.mem = s.mem) (fun _ _ hu hc => hc.mem_eq.trans hu) rfl h

/-- Settles O13: no step writes memory, and a read looks at nothing else. -/
theorem runsKeepMemory : Obligations.RunsKeepMemory := by
  intro k s t h
  have hmem := run_mem_eq h
  exact ⟨hmem, fun addr => by rw [memRead, memRead, hmem]⟩

/-! ### Every run ends (rule R82) -/

/-- The run from `s` is over after `k` steps, in `t`, and `Running` before. Each completed step moves pc by at least
one, and an instruction executes from at most 253; a run that halts met an HLT byte there. -/
structure RunEndsAt (s : State) (k : Nat) (t : State) : Prop where
  run : Sys2Proof.core.run k s = .next t
  before : ∀ (j : Nat) (u : State), j < k → Sys2Proof.core.run j s = .next u → u.runState = .running
  ends : (t.runState = .halted ∧ k ≤ 254 - s.pc.toNat ∧ ∃ a, s.pc.toNat ≤ a ∧ a ≤ 253 ∧ s.mem.peek a = 0x01#8) ∨
    (t.runState = .faulted ∧ k ≤ 254 - s.pc.toNat + 1)

/-- A core that is `Running` for `k` states from the next one on is so for `k + 1` states from this one on. -/
theorem running_before_succ {s t : State} {k : Nat} (hr : s.runState = .running) (hs : step s = .next t)
    (h : ∀ (j : Nat) (u : State), j < k → Sys2Proof.core.run j t = .next u → u.runState = .running) :
    ∀ (j : Nat) (u : State), j < k + 1 → Sys2Proof.core.run j s = .next u → u.runState = .running
  | 0, _, _, hu => by
    cases hu
    exact hr
  | j + 1, u, hj, hu => h j u (Nat.lt_of_succ_lt_succ hj) ((run_succ hs j).symm.trans hu)

namespace RunEndsAt
variable {s t : State} (hr : s.runState = .running) (hs : step s = .next t)
include hr hs

theorem of_fault (ht : t.runState = .faulted) : RunEndsAt s 1 t where
  run := run_succ hs 0
  before := running_before_succ hr hs nofun
  ends := .inr ⟨ht, Nat.le_add_left 1 _⟩

theorem of_hlt (ht : t.runState = .halted) (hpc : s.pc.toNat ≤ 253) (ho : s.mem.peek s.pc.toNat = 0x01#8) :
    RunEndsAt s 1 t where
  run := run_succ hs 0
  before := running_before_succ hr hs nofun
  ends := .inl ⟨ht, by omega, s.pc.toNat, Nat.le_refl _, hpc, ho⟩

theorem of_step (hpc : s.pc.toNat ≤ 253) (hmove : s.pc.toNat < t.pc.toNat) {k : Nat} {u : State}
    (h : RunEndsAt t k u) : RunEndsAt s (k + 1) u where
  run := (run_succ hs k).trans h.run
  before := running_before_succ hr hs h.before
  ends := by
    rcases h.ends with ⟨hu, hk, a, hlo, hhi, ha⟩ | ⟨hu, hk⟩
    · rw [(step_inv hs).mem_eq] at ha
      exact .inl ⟨hu, by omega, a, by omega, hhi, ha⟩
    · exact .inr ⟨hu, by omega⟩

end RunEndsAt

/-- Every run of a running core ends: what is left of memory before pc 254 shrinks with each completed step. -/
theorem exists_runEndsAt (s : State) (hr : s.runState = .running) : ∃ k t, RunEndsAt s k t := by
  obtain ⟨t, hs, hc⟩ := step_cases s
  rcases hc.faults_or_completes hr with ⟨f, rfl, _⟩ | ⟨hn, hpc, hmove⟩
  · exact ⟨1, _, .of_fault hr hs rfl⟩
  have hlt : s.pc.toNat < t.pc.toNat := by
    have := opLength_pos (s.mem.peek s.pc.toNat)
    omega
  rcases hc.transitions with ⟨hs', _⟩ | ⟨_, ht, _⟩ | ⟨_, ht, _, ho, _⟩ | ⟨_, ht, _⟩
  · exact absurd hr hs'
  · obtain ⟨k, u, h⟩ := exists_runEndsAt t ht
    exact ⟨k + 1, u, h.of_step hr hs hpc hlt⟩
  · exact ⟨1, t, .of_hlt hr hs ht hpc ho⟩
  · exact absurd ht hn
termination_by 254 - s.pc.toNat
decreasing_by omega

/-- Settles O51 from pc 0. -/
theorem everyRunEnds : Obligations.EveryRunEnds := by
  intro s hr hpc
  obtain ⟨k, t, h⟩ := exists_runEndsAt s hr
  refine ⟨k, t, h.run, ?_, h.before⟩
  have hzero : s.pc.toNat = 0 := by rw [hpc]; rfl
  rcases h.ends with ⟨ht, hk, _⟩ | ⟨ht, hk⟩
  · exact .inl ⟨ht, by omega⟩
  · exact .inr ⟨ht, by omega⟩

/-- Settles O52: the run ends, and not by an HLT byte. -/
theorem runWithoutHltFaults : Obligations.RunWithoutHltFaults := by
  intro s hr hno
  obtain ⟨k, t, h⟩ := exists_runEndsAt s hr
  rcases h.ends with ⟨_, _, a, hlo, hhi, ha⟩ | ⟨ht, hk⟩
  · exact absurd ha (hno a hlo hhi)
  · exact ⟨k, t, h.run, ht, by omega⟩

/-! ### The end of a successful run (rule R157) -/

/-- A booted core is the reset core after a load and a start. -/
theorem eq_of_boot {img : List Byte} {s : State} (h : boot img = some s) :
    s = applyStart (applyLoad img State.reset).2 := by
  rw [boot] at h
  split at h <;> cases h
  next he => rw [he]

/-- Settles O53: a booted core meets the invariant, every step keeps it, and it says where a halted core stands. -/
theorem successfulRunEndState : Obligations.SuccessfulRunEndState := by
  intro img s t k hboot hrun hend
  have hs : CoreInv s := eq_of_boot hboot ▸ (CoreInv.applyLoad resetMeetsInvariant img).applyStart
  have ht : CoreInv t := run_induction (fun _ _ hu hc => hu.step hc) hs hrun
  have hmem := run_mem_eq hrun
  obtain ⟨hlo, hhi, hhlt⟩ := ht.haltedAfterHlt hend
  exact ⟨hmem, ht.fault_eq_none (by simp [hend]), hlo, hhi, hmem ▸ hhlt⟩

/-! ### Encoded instructions run in order (rules R50, R70, R161) -/

theorem StandsAt.left {m : Memory} {k : Nat} {xs ys : List Byte} (h : StandsAt m k (xs ++ ys)) : StandsAt m k xs := by
  intro j hj
  rw [h j (by rw [List.length_append]; omega), List.getElem_append_left hj]

theorem StandsAt.right {m : Memory} {k : Nat} {xs ys : List Byte} (h : StandsAt m k (xs ++ ys)) :
    StandsAt m (k + xs.length) ys := by
  intro j hj
  rw [Nat.add_assoc, h (xs.length + j) (by rw [List.length_append]; omega), List.getElem_append_right (by omega)]
  simp only [Nat.add_sub_cancel_left]

theorem StandsAt.cons {m : Memory} {k : Nat} {v : Byte} {bs : List Byte} (h : StandsAt m k (v :: bs)) :
    m.peek k = v ∧ StandsAt m (k + 1) bs :=
  ⟨h 0 (Nat.succ_pos _), StandsAt.right (xs := [v]) h⟩

/-- Where an encoding stands, the three bytes of a fetch decode to the instruction. -/
theorem StandsAt.decode {m : Memory} {k : Nat} {i : Instr} (h : StandsAt m k (encode i)) :
    decode ⟨m.peek k, m.peek (k + 1), m.peek (k + 2)⟩ = .ok i := by
  cases i with
  | hlt =>
    rw [h.cons.1]
    exact decode_hlt _ _
  | ldi a b =>
    obtain ⟨ho, h⟩ := h.cons
    obtain ⟨ha, h⟩ := h.cons
    rw [ho, ha, h.cons.1]
    exact decode_ldi a b
  | prn a =>
    obtain ⟨ho, h⟩ := h.cons
    rw [ho, h.cons.1]
    exact decode_prn a _
  | mul a b =>
    obtain ⟨ho, h⟩ := h.cons
    obtain ⟨ha, h⟩ := h.cons
    rw [ho, ha, h.cons.1]
    exact decode_mul a b

/-- A running core at an encoded instruction, pc at most 253, executes it. -/
theorem step_of_standsAt {s : State} {i : Instr} (hr : s.runState = .running) (hpc : s.pc.toNat ≤ 253)
    (h : StandsAt s.mem s.pc.toNat (encode i)) : step s = exec i s :=
  step_of_decode hr hpc h.decode

/-- With legal register operands every instruction but HLT completes: the run state and memory stay, and pc moves past
its bytes. -/
theorem exec_goes_on {i : Instr} (hne : i ≠ .hlt) (hwf : i.wf = true) (s : State) :
    ∃ u : State, exec i s = .next (u.advance (encode i).length) ∧ u.runState = s.runState ∧ u.mem = s.mem ∧
      u.pc = s.pc := by
  cases i with
  | hlt => exact absurd rfl hne
  | ldi a b => exact ⟨_, execLdi_of_lt s b (regIndexOk_iff.1 hwf), rfl, rfl, rfl⟩
  | prn a => exact ⟨_, execPrn_of_lt s (regIndexOk_iff.1 hwf), rfl, rfl, rfl⟩
  | mul a b =>
    obtain ⟨ha, hb⟩ := Bool.and_eq_true_iff.1 hwf
    exact ⟨_, execMul_of_lt s (regIndexOk_iff.1 ha) (regIndexOk_iff.1 hb), rfl, rfl, rfl⟩

/-- Settles O54 by induction over the instructions: each is executed by one step, which leaves the rest standing at the
new pc. -/
theorem encodedInstructionsRunInOrder : Obligations.EncodedInstructionsRunInOrder := by
  intro is i s hr hstands hroom hgood
  induction is generalizing s with
  | nil =>
    have hstep : step s = exec i s := step_of_standsAt hr hroom hstands.left
    obtain ⟨t, ht⟩ := exec_next i s
    simp only [List.nil_append, execInOrder, ht]
    exact run_succ (hstep.trans ht) 0
  | cons j is ih =>
    obtain ⟨⟨hne, hwf⟩, hrest⟩ := List.forall_mem_cons.1 hgood
    rw [List.flatMap_cons, List.length_append] at hroom
    rw [List.cons_append, List.flatMap_cons] at hstands
    have hstep : step s = exec j s := step_of_standsAt hr (by omega) hstands.left
    obtain ⟨u, he, hrun, hmem, hpc⟩ := exec_goes_on hne hwf s
    have hroom' : u.pc.toNat ≤ 253 := by rw [hpc]; omega
    have hmove : (u.advance (encode j).length).pc.toNat = s.pc.toNat + (encode j).length := by
      rw [length_encode, State.advance_opLength_toNat hroom', hpc]
    have hgo := ih (u.advance (encode j).length) (hrun.trans hr)
      (by rw [hmove, State.advance_mem, hmem]; exact hstands.right) (by omega) hrest
    simp only [List.cons_append, execInOrder, he]
    exact (run_succ (hstep.trans he) _).trans hgo

end Sys2Proof.Machine
